-- ==== Sys2Proof/Word.lean ====
section
/-! DEFINITION. The word types of the block (spec/00_scope.md R6, R10). -/

namespace Sys2Proof

/-- A 32-bit word: a CMD word, a raw value, an address, a binary32 pattern (R6: RAW_W, ADDR_W, FLT). -/
abbrev Word := BitVec 32

/-- A 16-bit half of a packed word (R91). -/
abbrev Half := BitVec 16

/-- A 64-bit operand of PUSHX (R6: FIX_W). -/
abbrev DWord := BitVec 64

/-- The stored validity flags: bit 0 XV, bit 1 YV, bit 2 ZV (R23). -/
abbrev FlagBits := BitVec 3

/-- A 5-bit register index, 0 to 31 (R25, R29, R59). -/
abbrev RegIdx := Fin 32

end Sys2Proof
end

