-- ==== Sys2Proof/Syntax.lean ====
section
/-! DEFINITION. The syntax of the command port: ShadowValues and their six wire words, header fields, opcodes and
the 14 commands (spec/10_state.md R20, spec/20_memory.md R57, spec/30_encoding.md R81, R84). -/

namespace Sys2Proof

/-- A ShadowValue: three binary32 patterns, the 32-bit integer twin, the validity flags, the stamp (R20 to R24). -/
structure ShadowValue where
  x     : Word
  y     : Word
  z     : Word
  raw   : Word
  flags : FlagBits
  seq   : Word
  deriving DecidableEq, Repr

/-- The zero ShadowValue: every field the all-zero pattern (R38). -/
def ShadowValue.zero : ShadowValue := ⟨0, 0, 0, 0, 0, 0⟩

/-- A ShadowValue as it travels on a port: six words, the fifth holding the flags in bits 2:0 (R57). -/
structure SvWire where
  w0 : Word
  w1 : Word
  w2 : Word
  w3 : Word
  w4 : Word
  w5 : Word
  deriving DecidableEq, Repr

/-- The file select bit F: 0 = data file D, 1 = control file C (R81). -/
inductive FileSel where
  | data
  | ctrl
  deriving DecidableEq, Repr

/-- The fields of a header word, high bits first (R81). -/
structure Header where
  op : BitVec 8
  z1 : BitVec 3
  ra : BitVec 5
  z2 : BitVec 3
  rb : BitVec 5
  z3 : BitVec 7
  f  : BitVec 1
  deriving DecidableEq, Repr

/-- The 14 rows of the command table (R84). -/
inductive Opcode where
  | init | srd | swr | val | rdata | wdata | rctrl | wctrl | ldmem | stmem | pushf | pushx | nclipv | nclip
  deriving DecidableEq, Repr

/-- The 14 commands with their operands, in the order of R84 (RA and RB first, then payload; R96). -/
inductive Instr where
  /-- INIT (R111). -/
  | init
  /-- SRD f, i (R112). -/
  | srd (f : FileSel) (i : RegIdx)
  /-- SWR f, i, v (R113). -/
  | swr (f : FileSel) (i : RegIdx) (v : ShadowValue)
  /-- VAL f, i, raw (R123). -/
  | val (f : FileSel) (i : RegIdx) (raw : Word)
  /-- RDATA dsrc, hdst, rtVal, rdVal (R172). -/
  | rdata (dsrc hdst : RegIdx) (rtVal rdVal : Word)
  /-- WDATA hsrc, ddst, rdVal, rtVal, src (R173). -/
  | wdata (hsrc ddst : RegIdx) (rdVal rtVal : Word) (src : ShadowValue)
  /-- RCTRL csrc, hdst, rtVal, rdVal (R174). -/
  | rctrl (csrc hdst : RegIdx) (rtVal rdVal : Word)
  /-- WCTRL hsrc, cdst, rdVal, rtVal, src (R175). -/
  | wctrl (hsrc cdst : RegIdx) (rdVal rtVal : Word) (src : ShadowValue)
  /-- LDMEM ddst, address, rawWord (R176). -/
  | ldmem (ddst : RegIdx) (address rawWord : Word)
  /-- STMEM dsrc, address, rawWord (R177). -/
  | stmem (dsrc : RegIdx) (address rawWord : Word)
  /-- PUSHF x, y, z, rawPacked (R133). -/
  | pushf (x y z rawPacked : Word)
  /-- PUSHX x16, y16, z16, rawPacked (R135). -/
  | pushx (x16 y16 z16 : DWord) (rawPacked : Word)
  /-- NCLIPV raw0, raw1, raw2 (R156). -/
  | nclipv (raw0 raw1 raw2 : Word)
  /-- NCLIP (R157). -/
  | nclip
  deriving DecidableEq, Repr

end Sys2Proof
end

