-- ==== Sys2Proof/Machine/Operands.lean ====
section
/-! DEFINITION. Operand assembly (spec/30_encoding.md R83, R87 to R91; spec/20_memory.md R57): the halves of a
packed word, the I64 pair of words, the six-word layout of a ShadowValue. -/

namespace Sys2Proof.Machine

/-- The x half of a packed word, bits 15:0 (R91). -/
def xHalf (w : Word) : Half := w.extractLsb' 0 16

/-- The y half of a packed word, bits 31:16 (R91). -/
def yHalf (w : Word) : Half := w.extractLsb' 16 16

/-- An I64 operand sent as `lo` then `hi` is the pattern {hi, lo} (R88). -/
def i64OfWords (lo hi : Word) : DWord := hi ++ lo

/-- The low word of an I64, sent first (R88). -/
def i64Lo (v : DWord) : Word := v.extractLsb' 0 32

/-- The high word of an I64, sent second (R88). -/
def i64Hi (v : DWord) : Word := v.extractLsb' 32 32

/-- A received ShadowValue: flags are bits 2:0 of the fifth word, its bits 31:3 are ignored (R57, R89). -/
def svOfWire (w : SvWire) : ShadowValue := ⟨w.w0, w.w1, w.w2, w.w3, w.w4.extractLsb' 0 3, w.w5⟩

/-- A sent ShadowValue: bits 31:3 of the flags word are zero (R57). -/
def svToWire (v : ShadowValue) : SvWire := ⟨v.x, v.y, v.z, v.raw, v.flags.setWidth 32, v.seq⟩

/-- The six words in the order they are sent (R57). -/
def wireWords (w : SvWire) : List Word := [w.w0, w.w1, w.w2, w.w3, w.w4, w.w5]

/-- A ShadowValue as the six words sent (R57). -/
def svWords (v : ShadowValue) : List Word := wireWords (svToWire v)

end Sys2Proof.Machine
end

