-- ==== Sys2Proof/WellFormed.lean ====
section
/-! DEFINITION. Well-formed headers (spec/30_encoding.md R81, R82, R92): the must-be-zero fields are zero, the fields
a command does not use are zero, the opcode is one of the table's. Written field by field, apart from the mask and
match words the decoder uses. An `Instr` has no room for an ill-formed header: every index it holds is in range
(R82), so its own check is that the header it stands for passes. -/

namespace Sys2Proof

/-- Why a header is a reserved encoding (R92; the "why" column of 95_test_vectors.md). -/
inductive ReservedReason where
  /-- OP is 0x00 or 0x0F to 0xFF. -/
  | undefinedOp
  /-- Z1 (bits 23:21) is nonzero: the form an out-of-range RA would take (R82). -/
  | nonzeroZ1
  /-- Z2 (bits 15:13) is nonzero: the form an out-of-range RB would take (R82). -/
  | nonzeroZ2
  /-- Z3 (bits 7:1) is nonzero. -/
  | nonzeroZ3
  /-- RA is nonzero and the command does not use it. -/
  | unusedRa
  /-- RB is nonzero and the command does not use it. -/
  | unusedRb
  /-- F is set and the command does not use it. -/
  | unusedF
  deriving DecidableEq, Repr

/-- OP is one of 0x01 to 0x0E (R81, R84). -/
def Header.opDefined (h : Header) : Bool := decide (1 ≤ h.op.toNat) && decide (h.op.toNat ≤ 14)

/-- The commands whose header uses RA: SRD, SWR, VAL, RDATA, WDATA, RCTRL, WCTRL, STMEM (R84). -/
def Header.usesRa (h : Header) : Bool := [0x02, 0x03, 0x04, 0x05, 0x06, 0x07, 0x08, 0x0A].contains h.op

/-- The commands whose header uses RB: RDATA, WDATA, RCTRL, WCTRL, LDMEM (R84). -/
def Header.usesRb (h : Header) : Bool := [0x05, 0x06, 0x07, 0x08, 0x09].contains h.op

/-- The commands whose header uses F: SRD, SWR, VAL (R84). -/
def Header.usesF (h : Header) : Bool := [0x02, 0x03, 0x04].contains h.op

/-- Z1, Z2 and Z3 are zero (R81). -/
def Header.zerosZero (h : Header) : Bool := h.z1 == 0 && h.z2 == 0 && h.z3 == 0

/-- RA, RB and F are zero where the command does not use them (R82). -/
def Header.unusedZero (h : Header) : Bool :=
  (h.usesRa || h.ra == 0) && (h.usesRb || h.rb == 0) && (h.usesF || h.f == 0)

/-- A header is well formed when it is not a reserved encoding (R82, R92). -/
def Header.wellFormed (h : Header) : Bool := h.opDefined && h.zerosZero && h.unusedZero

/-- The bit that selects a file (R81). -/
def FileSel.bit : FileSel → BitVec 1
  | .data => 0
  | .ctrl => 1

/-- The header fields a command stands for: the operand columns of R84. -/
def Instr.header : Instr → Header
  | .init              => ⟨0x01, 0, 0, 0, 0, 0, 0⟩
  | .srd f i           => ⟨0x02, 0, .ofFin i, 0, 0, 0, f.bit⟩
  | .swr f i _         => ⟨0x03, 0, .ofFin i, 0, 0, 0, f.bit⟩
  | .val f i _         => ⟨0x04, 0, .ofFin i, 0, 0, 0, f.bit⟩
  | .rdata a b _ _     => ⟨0x05, 0, .ofFin a, 0, .ofFin b, 0, 0⟩
  | .wdata a b _ _ _   => ⟨0x06, 0, .ofFin a, 0, .ofFin b, 0, 0⟩
  | .rctrl a b _ _     => ⟨0x07, 0, .ofFin a, 0, .ofFin b, 0, 0⟩
  | .wctrl a b _ _ _   => ⟨0x08, 0, .ofFin a, 0, .ofFin b, 0, 0⟩
  | .ldmem b _ _       => ⟨0x09, 0, 0, 0, .ofFin b, 0, 0⟩
  | .stmem a _ _       => ⟨0x0A, 0, .ofFin a, 0, 0, 0, 0⟩
  | .pushf _ _ _ _     => ⟨0x0B, 0, 0, 0, 0, 0, 0⟩
  | .pushx _ _ _ _     => ⟨0x0C, 0, 0, 0, 0, 0, 0⟩
  | .nclipv _ _ _      => ⟨0x0D, 0, 0, 0, 0, 0, 0⟩
  | .nclip             => ⟨0x0E, 0, 0, 0, 0, 0, 0⟩

/-- A command is well formed when its header is. -/
def Instr.wellFormed (i : Instr) : Bool := i.header.wellFormed

end Sys2Proof
end

