-- ==== Sys2Proof/Decode.lean ====
section
/-! DEFINITION. Decoding a CMD stream (spec/30_encoding.md R84, R85, R92, R93), total on any words, and the encoder
after it (R81, R83, R84, R88, R89). -/

namespace Sys2Proof

open Sys2Proof.Machine

/-- One row of the command table: the header `h` selects it when `h &&& mask = pat`; `length` is in words, header
included (R84). -/
structure OpRow where
  op     : Opcode
  pat    : Word
  mask   : Word
  length : Nat
  deriving DecidableEq, Repr

/-- The command table (R84; opcode_table.json). -/
def opTable : List OpRow :=
  [⟨.init,   0x01000000, 0xFFFFFFFF, 1⟩,
   ⟨.srd,    0x02000000, 0xFFE0FFFE, 1⟩,
   ⟨.swr,    0x03000000, 0xFFE0FFFE, 7⟩,
   ⟨.val,    0x04000000, 0xFFE0FFFE, 2⟩,
   ⟨.rdata,  0x05000000, 0xFFE0E0FF, 3⟩,
   ⟨.wdata,  0x06000000, 0xFFE0E0FF, 9⟩,
   ⟨.rctrl,  0x07000000, 0xFFE0E0FF, 3⟩,
   ⟨.wctrl,  0x08000000, 0xFFE0E0FF, 9⟩,
   ⟨.ldmem,  0x09000000, 0xFFFFE0FF, 3⟩,
   ⟨.stmem,  0x0A000000, 0xFFE0FFFF, 3⟩,
   ⟨.pushf,  0x0B000000, 0xFFFFFFFF, 5⟩,
   ⟨.pushx,  0x0C000000, 0xFFFFFFFF, 8⟩,
   ⟨.nclipv, 0x0D000000, 0xFFFFFFFF, 4⟩,
   ⟨.nclip,  0x0E000000, 0xFFFFFFFF, 1⟩]

/-- Whether a header word selects a row (R84). -/
def OpRow.selects (r : OpRow) (h : Word) : Bool := h &&& r.mask == r.pat

/-- The row a header word selects, none for a reserved encoding (R85). -/
def selectRow (h : Word) : Option OpRow := opTable.find? (fun r => r.selects h)

/-- The fields of a header word (R81). -/
def headerFields (h : Word) : Header :=
  ⟨h.extractLsb' 24 8, h.extractLsb' 21 3, h.extractLsb' 16 5, h.extractLsb' 13 3, h.extractLsb' 8 5,
   h.extractLsb' 1 7, h.extractLsb' 0 1⟩

/-- The name of a reserved encoding's fault: the first field at fault, from the high bits down (R92). Used only for
headers that select no row. -/
def whyReserved (w : Word) : ReservedReason :=
  let h := headerFields w
  if !h.opDefined then .undefinedOp
  else if h.z1 != 0 then .nonzeroZ1
  else if !h.usesRa && h.ra != 0 then .unusedRa
  else if h.z2 != 0 then .nonzeroZ2
  else if !h.usesRb && h.rb != 0 then .unusedRb
  else if h.z3 != 0 then .nonzeroZ3
  else .unusedF

/-- The RA index of a header, bits 20:16 (R81). -/
def raOf (h : Word) : RegIdx := (h.extractLsb' 16 5).toFin

/-- The RB index of a header, bits 12:8 (R81). -/
def rbOf (h : Word) : RegIdx := (h.extractLsb' 8 5).toFin

/-- The file select of a header, bit 0 (R81). -/
def fileOf (h : Word) : FileSel := if h.extractLsb' 0 1 = 0 then .data else .ctrl

/-- Payload word `k`, counted from the word after the header. -/
def payloadWord (p : List Word) (k : Nat) : Word := p.getD k 0

/-- An SV operand whose first word is payload word `k` (R89). -/
def payloadSv (p : List Word) (k : Nat) : ShadowValue :=
  svOfWire ⟨payloadWord p k, payloadWord p (k + 1), payloadWord p (k + 2), payloadWord p (k + 3),
    payloadWord p (k + 4), payloadWord p (k + 5)⟩

/-- An I64 operand whose low word is payload word `k` (R88). -/
def payloadI64 (p : List Word) (k : Nat) : DWord := i64OfWords (payloadWord p k) (payloadWord p (k + 1))

/-- The command of a selected row, its operands assembled from the header and the payload words (R84, R85, R87 to
R90). -/
def assemble (op : Opcode) (h : Word) (p : List Word) : Instr :=
  match op with
  | .init   => .init
  | .srd    => .srd (fileOf h) (raOf h)
  | .swr    => .swr (fileOf h) (raOf h) (payloadSv p 0)
  | .val    => .val (fileOf h) (raOf h) (payloadWord p 0)
  | .rdata  => .rdata (raOf h) (rbOf h) (payloadWord p 0) (payloadWord p 1)
  | .wdata  => .wdata (raOf h) (rbOf h) (payloadWord p 0) (payloadWord p 1) (payloadSv p 2)
  | .rctrl  => .rctrl (raOf h) (rbOf h) (payloadWord p 0) (payloadWord p 1)
  | .wctrl  => .wctrl (raOf h) (rbOf h) (payloadWord p 0) (payloadWord p 1) (payloadSv p 2)
  | .ldmem  => .ldmem (rbOf h) (payloadWord p 0) (payloadWord p 1)
  | .stmem  => .stmem (raOf h) (payloadWord p 0) (payloadWord p 1)
  | .pushf  => .pushf (payloadWord p 0) (payloadWord p 1) (payloadWord p 2) (payloadWord p 3)
  | .pushx  => .pushx (payloadI64 p 0) (payloadI64 p 2) (payloadI64 p 4) (payloadWord p 6)
  | .nclipv => .nclipv (payloadWord p 0) (payloadWord p 1) (payloadWord p 2)
  | .nclip  => .nclip

/-- What the decoder reads at the head of a stream (R85, R92, R93). -/
inductive DecodeResult where
  /-- A whole packet: the command and the words after it. -/
  | instr (i : Instr) (rest : List Word)
  /-- The header is a reserved encoding (R92). -/
  | reserved (why : ReservedReason)
  /-- The stream holds no whole packet yet (R93). -/
  | incomplete
  deriving DecidableEq, Repr

/-- The decoding procedure (R85). -/
def decode (ws : List Word) : DecodeResult :=
  match ws with
  | [] => .incomplete
  | h :: p =>
    match selectRow h with
    | none => .reserved (whyReserved h)
    | some r =>
      if p.length < r.length - 1 then .incomplete
      else .instr (assemble r.op h (p.take (r.length - 1))) (p.drop (r.length - 1))

/-! ### The encoder -/

/-- A header word laid out field by field: {OP, Z1 = 0, RA, Z2 = 0, RB, Z3 = 0, F} (R81). -/
def headerWord (op : BitVec 8) (ra rb : RegIdx) (f : BitVec 1) : Word :=
  op ++ (0 : BitVec 3) ++ (BitVec.ofFin ra : BitVec 5) ++ (0 : BitVec 3) ++ (BitVec.ofFin rb : BitVec 5) ++
    (0 : BitVec 7) ++ f

/-- The header word of a command (R81, R84). -/
def encodeHeader : Instr → Word
  | .init              => headerWord 0x01 0 0 0
  | .srd f i           => headerWord 0x02 i 0 f.bit
  | .swr f i _         => headerWord 0x03 i 0 f.bit
  | .val f i _         => headerWord 0x04 i 0 f.bit
  | .rdata a b _ _     => headerWord 0x05 a b 0
  | .wdata a b _ _ _   => headerWord 0x06 a b 0
  | .rctrl a b _ _     => headerWord 0x07 a b 0
  | .wctrl a b _ _ _   => headerWord 0x08 a b 0
  | .ldmem b _ _       => headerWord 0x09 0 b 0
  | .stmem a _ _       => headerWord 0x0A a 0 0
  | .pushf _ _ _ _     => headerWord 0x0B 0 0 0
  | .pushx _ _ _ _     => headerWord 0x0C 0 0 0
  | .nclipv _ _ _      => headerWord 0x0D 0 0 0
  | .nclip             => headerWord 0x0E 0 0 0

/-- The payload words of a command, in the order sent (R84). -/
def encodePayload : Instr → List Word
  | .init                => []
  | .srd _ _             => []
  | .swr _ _ v           => svWords v
  | .val _ _ raw         => [raw]
  | .rdata _ _ rt rd     => [rt, rd]
  | .wdata _ _ rd rt src => [rd, rt] ++ svWords src
  | .rctrl _ _ rt rd     => [rt, rd]
  | .wctrl _ _ rd rt src => [rd, rt] ++ svWords src
  | .ldmem _ a w         => [a, w]
  | .stmem _ a w         => [a, w]
  | .pushf x y z rp      => [x, y, z, rp]
  | .pushx x y z rp      => [i64Lo x, i64Hi x, i64Lo y, i64Hi y, i64Lo z, i64Hi z, rp]
  | .nclipv r0 r1 r2     => [r0, r1, r2]
  | .nclip               => []

/-- The packet of a command: header, then payload (R80, R84). -/
def encode (i : Instr) : List Word := encodeHeader i :: encodePayload i

/-! ### The opcode table's numbering of an instruction's bits -/

/-- The longest packet, in words (R95). -/
def longestPacket : Nat := 9

/-- The words of an instruction whose bits are `w`, bit 0 the least significant bit of the first word, every bit from
`nbits` up zero. -/
def tableWords (nbits w : Nat) : List Word :=
  (List.range longestPacket).map (fun k => BitVec.ofNat 32 ((w % 2 ^ nbits) >>> (32 * k)))

/-- The packet at the head of a list of words: its first `length` words, all of them when the header is reserved. -/
def packetOf (ws : List Word) : List Word :=
  match ws with
  | [] => []
  | h :: _ => match selectRow h with
    | none => ws
    | some r => ws.take r.length

/-- The command the decoder reads from an instruction whose bits are `w`. -/
def decodeTableWord (nbits w : Nat) : Option Instr :=
  match decode (tableWords nbits w) with
  | .instr i _ => some i
  | .reserved _ => none
  | .incomplete => none

end Sys2Proof
end

