-- ==== Sys2Proof/Machine/Binary32.lean ====
section
/-! DEFINITION. IEEE 754 binary32 arithmetic on 32-bit patterns (spec/00_scope.md R12, spec/43_nclip.md R150 to R153).

Every finite binary32 value is an integer multiple of 2^-149. The operations compute the exact result as an integer
in a fixed unit (2^-149 for values and sums, 2^-298 for products and for rounding) and round once, to nearest with
ties to even. -/

namespace Sys2Proof.Machine

/-- `CNAN`, the one NaN every operation produces (R6, R151). -/
def cnan : Word := 0x7FC00000

/-- The pattern of 1.0: `Z_ONE` and `NCLIP_HI` (R6). -/
def fOne : Word := 0x3F800000

/-- The pattern of -1.0 (R157). -/
def fMinusOne : Word := 0xBF800000

/-- The pattern of 2^-16 (R152; 95_test_vectors.md: i2f 1 after fscale16 is 0x37800000). -/
def fTwoPowMinus16 : Word := 0x37800000

/-- Sign, bit 31 (R150). -/
def fsign (a : Word) : Bool := a.getLsbD 31

/-- Biased exponent, bits 30:23 (R150). -/
def fexp (a : Word) : Nat := (a.extractLsb' 23 8).toNat

/-- Fraction, bits 22:0 (R150). -/
def ffrac (a : Word) : Nat := (a.extractLsb' 0 23).toNat

/-- A NaN: exponent 255, fraction nonzero (R150). -/
def isNaN (a : Word) : Bool := fexp a == 255 && ffrac a != 0

/-- An infinity: exponent 255, fraction zero (R150). -/
def isInf (a : Word) : Bool := fexp a == 255 && ffrac a == 0

/-- A finite value: exponent below 255 (R150). -/
def isFinite (a : Word) : Bool := decide (fexp a < 255)

/-- The magnitude in units of 2^-149: exact for every finite pattern, zeros and subnormals included (R150); for an
infinity the value one binade above the largest finite one, which is only compared. -/
def fmag (a : Word) : Nat := if fexp a = 0 then ffrac a else (2 ^ 23 + ffrac a) * 2 ^ (fexp a - 1)

/-- The signed value in units of 2^-149; both zeros give 0. -/
def fval (a : Word) : Int := if fsign a then -(fmag a : Int) else (fmag a : Int)

/-- The pattern of an infinity's magnitude (R150). -/
def infMag : Nat := 0x7F800000

/-- Round the magnitude `m` (in units of 2^-298) to the nearest binary32 magnitude pattern, ties to even (R151). The
quotient by the spacing 2^shift of the result's binade, plus the binade's number, IS the pattern: a carry out of the
fraction moves into the exponent, and past the last binade the result is an infinity. Underflow is gradual: the
spacing never falls below 2^-149. -/
def roundMag (m : Nat) : Nat :=
  let shift := max (m.log2 - 23) 149
  let q := m / 2 ^ shift
  let r := m % 2 ^ shift
  let half := 2 ^ (shift - 1)
  let up := decide (half < r) || (decide (r = half) && decide (q % 2 = 1))
  let q' := if up then q + 1 else q
  min ((shift - 149) * 2 ^ 23 + q') infMag

/-- A pattern from its sign and magnitude bits (R150). -/
def packF (neg : Bool) (mag : Nat) : Word := (BitVec.ofBool neg : BitVec 1) ++ (BitVec.ofNat 31 mag : BitVec 31)

/-- The pattern with bit 31 inverted. -/
def fneg (a : Word) : Word := a ^^^ 0x80000000

/-- `fabs(a)` clears bit 31, for every pattern (R12, R153). -/
def fabs (a : Word) : Word := a &&& 0x7FFFFFFF

/-- The sum of two finite values, rounded once. An exact zero is -0 only when both operands are negative zeros, or
more generally negative (R151: fsub(a, a) = +0, fadd(+0, -0) = +0). -/
def faddFinite (a b : Word) : Word :=
  let s := fval a + fval b
  if s = 0 then packF (fsign a && fsign b) 0
  else packF (decide (s < 0)) (roundMag (s.natAbs * 2 ^ 149))

/-- `fadd(a, b)` (R12, R151). -/
def fadd (a b : Word) : Word :=
  if isNaN a || isNaN b then cnan
  else if isInf a then (if isInf b && (fsign a != fsign b) then cnan else a)
  else if isInf b then b
  else faddFinite a b

/-- `fsub(a, b)`: the sum with `b`'s sign inverted (R12, R151). -/
def fsub (a b : Word) : Word := fadd a (fneg b)

/-- `fmul(a, b)`: the sign is the exclusive-or of the operands' signs; infinity times zero is invalid (R12, R151). -/
def fmul (a b : Word) : Word :=
  if isNaN a || isNaN b then cnan
  else if isInf a || isInf b then
    (if fmag a = 0 || fmag b = 0 then cnan else packF (fsign a ^^ fsign b) infMag)
  else packF (fsign a ^^ fsign b) (roundMag (fmag a * fmag b))

/-- `flt(a, b)`: quiet less-than, false when either is a NaN, -0 equal to +0 (R12, R153). -/
def flt (a b : Word) : Bool := !isNaN a && !isNaN b && decide (fval a < fval b)

/-- `i2f(n)`: the nearest binary32 to a signed integer; i2f(0) = +0.0 (R12, R152). -/
def i2f (n : Int) : Word := packF (decide (n < 0)) (roundMag (n.natAbs * 2 ^ 298))

/-- `fscale16(a)` is `fmul(a, 2^-16)` (R152). -/
def fscale16 (a : Word) : Word := fmul a fTwoPowMinus16

end Sys2Proof.Machine
end

