-- ==== Sys2Proof/Machine/Flags.lean ====
section
/-! DEFINITION. The validity flags (spec/10_state.md R23, R35): the only flags of the block. -/

namespace Sys2Proof.Machine

/-- `F_NONE`, all flags clear (R23). -/
def fNone : FlagBits := 0b000

/-- `F_XY`, X and Y valid (R23). -/
def fXy : FlagBits := 0b011

/-- `F_ALL`, all three valid (R23). -/
def fAll : FlagBits := 0b111

/-- X-valid, bit 0 (R23). -/
def xv (f : FlagBits) : Bool := f.getLsbD 0

/-- Y-valid, bit 1 (R23). -/
def yv (f : FlagBits) : Bool := f.getLsbD 1

/-- Z-valid, bit 2 (R23). -/
def zv (f : FlagBits) : Bool := f.getLsbD 2

/-- The aggregate XY-valid predicate, derived and not stored (R23). -/
def xyv (f : FlagBits) : Bool := xv f && yv f

end Sys2Proof.Machine
end

