-- ==== Sys2Proof/Config.lean ====
section
/-! DEFINITION. The one open parameter of the block (spec/00_scope.md R6, R7). Every other parameter of R6 is
fixed by the spec and stands where it is used. -/

namespace Sys2Proof

/-- `HEAD_REDERIVE_ON_READ` (R7, R171, 92_eei_decisions.md D12): whether RDATA with source 15 first copies D[14]
into D[15]. OPEN in the spec, so it has no body: every theorem holds for both values. Log entry 6. -/
opaque Config.headRederiveOnRead : Bool

end Sys2Proof
end

