-- ==== Sys2Proof/Machine/State.lean ====
section
/-! DEFINITION. The machine's state as plain data, its faults and refusals, and the state after reset
(spec/10_state.md, spec/20_memory.md R50 to R57, spec/70_reset_and_hazards.md R210). -/

namespace Sys2Proof.Machine

/-- The two mode inputs, MODE.TDC and MODE.VC, one bit each (R33). -/
structure Mode where
  tdc : Bool
  vc  : Bool
  deriving DecidableEq, Repr

/-- An output event (R50 to R56). -/
inductive Event where
  /-- `H(idx, v)`: the host must store `v` in its slot `idx`, which the block does not interpret (R51). -/
  | host (idx : RegIdx) (v : ShadowValue)
  /-- `R.sv(v)`: the result of SRD (R52). -/
  | resSv (v : ShadowValue)
  /-- `R.word(w)`: the Boolean of NCLIPV or the binary32 of NCLIP (R52). -/
  | resWord (w : Word)
  /-- `V.cache(kx, ky, v)` (R53). -/
  | vCache (kx ky : Half) (v : ShadowValue)
  /-- `V.empty` (R53). -/
  | vEmpty
  /-- `M.vcm(a, w)`: the ValidateAndCopyMem request of LDMEM (R54). -/
  | mVcm (a w : Word)
  /-- `M.wr(v, a)`: the WriteMem of STMEM (R56). -/
  | mWr (v : ShadowValue) (a : Word)
  deriving DecidableEq, Repr

/-- The four output channels (R50). -/
inductive Channel where
  | H | R | V | M
  deriving DecidableEq, Repr

/-- A ValidateAndCopyMem request whose answer has not come, with what LDMEM still has to do (R55, R176). -/
structure VcmRequest where
  ddst    : RegIdx
  address : Word
  rawWord : Word
  deriving DecidableEq, Repr

/-- The machine. The first six fields are the block's; the last four are its inputs, which the environment drives
(log entries 1, 3, 4, 8). -/
structure State where
  /-- The data register file D (R25). -/
  d          : Vector ShadowValue 32
  /-- The control register file C (R29). -/
  c          : Vector ShadowValue 32
  /-- The sequence counter SEQ (R31). -/
  seq        : Word
  /-- The words received on CMD and not yet executed, oldest first (R60, R93). -/
  cmd        : List Word
  /-- The outstanding request of an LDMEM that waits for its answer (R55, R210). -/
  vcmPending : Option VcmRequest
  /-- The output events produced and not yet taken, oldest first (R9, R71, R210). -/
  out        : List Event
  /-- Input: the levels of MODE.TDC and MODE.VC now (R33). -/
  mode       : Mode
  /-- Input: the levels that the coming pushes find, oldest first; when empty the levels stay (R33, R220). -/
  modeIn     : List Mode
  /-- Input: the memory collaborator's answers to requests, oldest first, as six words each (R54, R57). -/
  vcmIn      : List SvWire
  /-- Input: the hardware reset, true while asserted (R210). -/
  resetIn    : Bool
  deriving DecidableEq, Repr

/-- How the machine stops. -/
inductive Fault where
  /-- Raised by `step` when the next header is a reserved encoding. The spec leaves the behaviour undefined and asks
  for a fault that ends the run (R92, R194; 93_implementation_defined.md U1). SAFE: the model stops where the block
  goes on in some unstated way. -/
  | reservedHeader (why : ReservedReason)
  deriving DecidableEq, Repr

/-- How a step is refused. -/
inductive Refusal where
  /-- An instruction without a meaning in this model; raised by no arm of `exec`. SAFE: the model stops. -/
  | notModelled (mnemonic : String)
  deriving DecidableEq, Repr

/-- The state after hardware reset (R38, R210, R211): both files zero, SEQ zero, no partial packet, no outstanding
request, no pending event. The input fields have no reset value in the block: levels 0, nothing to come, reset
released (DESIGN CHOICE, unsafe; log entries 3, 4, 8). -/
def State.reset : State :=
  { d := Vector.replicate 32 ShadowValue.zero
    c := Vector.replicate 32 ShadowValue.zero
    seq := 0
    cmd := []
    vcmPending := none
    out := []
    mode := ⟨false, false⟩
    modeIn := []
    vcmIn := []
    resetIn := false }

end Sys2Proof.Machine
end

