-- ==== Sys2Proof/Machine/Ops.lean ====
section
/-! DEFINITION. The named operations over the register files and the ports: slots, events, Degrade, Validate, Shift,
the register-write rule, the sampled inputs, the hardware reset. The block takes no exception and returns from none
(spec/60_exceptions.md R190, R197, R198), so there is no such operation to write. -/

namespace Sys2Proof.Machine

/-! ### Slots, counter, events -/

/-- `F[i]`: D[i] or C[i] (R11). -/
def State.slot (s : State) (f : FileSel) (i : RegIdx) : ShadowValue :=
  match f with
  | .data => s.d[i]
  | .ctrl => s.c[i]

/-- `F[i] <- v` (R11). -/
def State.writeSlot (s : State) (f : FileSel) (i : RegIdx) (v : ShadowValue) : State :=
  { s with
    d := match f with
      | .data => s.d.set i v
      | .ctrl => s.d
    c := match f with
      | .data => s.c
      | .ctrl => s.c.set i v }

/-- `D[0..31]` and `C[0..31]` all the zero ShadowValue (R111). -/
def State.zeroFiles (s : State) : State :=
  { s with d := Vector.replicate 32 ShadowValue.zero, c := Vector.replicate 32 ShadowValue.zero }

/-- Append an output event (R11, R71). -/
def State.emit (s : State) (e : Event) : State := { s with out := s.out ++ [e] }

/-- `SEQ <- SEQ + 1`, modulo 2^32 (R133, R155). -/
def State.bumpSeq (s : State) : State := { s with seq := s.seq + 1 }

/-- The stream after the words of a packet were taken (R85). -/
def State.withCmd (s : State) (ws : List Word) : State := { s with cmd := ws }

/-- The channel an event travels on (R50). -/
def Event.channel : Event → Channel
  | .host _ _ => .H
  | .resSv _ => .R
  | .resWord _ => .R
  | .vCache _ _ _ => .V
  | .vEmpty => .V
  | .mVcm _ _ => .M
  | .mWr _ _ => .M

/-- The words an event carries, a ShadowValue as six words with flags-word bits 31:3 zero (R57). The spec fixes these
six words and no framing around them. DESIGN CHOICE (log entry 15): the index of an H event, each key half of a V.cache
event and the address of an M event take a word of their own, zero-extended, and the words stand in the order in which
R51, R53, R54 and R56 write the event's arguments. -/
def Event.words : Event → List Word
  | .host idx v => BitVec.ofNat 32 idx.val :: svWords v
  | .resSv v => svWords v
  | .resWord w => [w]
  | .vCache kx ky v => kx.setWidth 32 :: ky.setWidth 32 :: svWords v
  | .vEmpty => []
  | .mVcm a w => [a, w]
  | .mWr v a => svWords v ++ [a]

/-! ### The validity protocol -/

/-- `Degrade(w)` (R120): the slot rebuilt from `w` alone. -/
def degrade (w : Word) : ShadowValue :=
  { x := i2f (xHalf w).toInt
    y := i2f (yHalf w).toInt
    z := 0
    raw := w
    flags := fNone
    seq := 0 }

/-- `Validate(s, w)` (R121). -/
def validate (v : ShadowValue) (w : Word) : ShadowValue := if v.raw = w then v else degrade w

/-- `F[i] <- Validate(F[i], w)` (R121). -/
def State.validateSlot (s : State) (f : FileSel) (i : RegIdx) (w : Word) : State :=
  s.writeSlot f i (validate (s.slot f i) w)

/-- `v with raw := w` (R11). -/
def withRaw (v : ShadowValue) (w : Word) : ShadowValue := { v with raw := w }

/-! ### The screen-coordinate FIFO -/

/-- `SXY0 = D[12]`, the oldest entry (R25, R27). -/
def sxy0 : RegIdx := 12

/-- `SXY1 = D[13]` (R25). -/
def sxy1 : RegIdx := 13

/-- `SXY2 = D[14]`, the newest entry (R25, R27). -/
def sxy2 : RegIdx := 14

/-- `SXYP = D[15]`, the head (R25, R27). -/
def sxyp : RegIdx := 15

/-- `SINK`, the data register whose transfer writes are discarded (R6, R26). -/
def sink : RegIdx := 31

/-- `Shift(v)` (R130), the assignments in the order written. -/
def State.shift (s : State) (v : ShadowValue) : State :=
  let s1 := s.writeSlot .data sxy0 (s.slot .data sxy1)
  let s2 := s1.writeSlot .data sxy1 (s1.slot .data sxy2)
  let s3 := s2.writeSlot .data sxy2 v
  s3.writeSlot .data sxyp v

/-- The behaviour classes of a data index under the register-write rule (R26). -/
inductive RegClass where
  | plain | fifoPush | sink
  deriving DecidableEq, Repr

/-- The class of a data index (R26). -/
def regClass (i : RegIdx) : RegClass :=
  if i = sxyp then .fifoPush else if i = sink then .sink else .plain

/-- `RegWrite(i, v, w)` (R131). -/
def State.regWrite (s : State) (i : RegIdx) (v : ShadowValue) (w : Word) : State :=
  match regClass i with
  | .fifoPush => s.shift v
  | .sink => s
  | .plain => s.writeSlot .data i (withRaw v w)

/-! ### The sampled inputs -/

/-- The mode levels a push finds (R33, R220). -/
def State.sampledMode (s : State) : Mode := s.modeIn.headD s.mode

/-- The inputs after a push has sampled them: the levels found stay until they change again. -/
def State.afterSample (s : State) : State := { s with mode := s.sampledMode, modeIn := s.modeIn.tail }

/-- Send `M.vcm(a, w)` and bind the answer `v` (R54): with an answer at hand the register-write rule follows at once;
without one the request stays outstanding and the block waits (R55, R176). -/
def State.requestVcm (s : State) (r : VcmRequest) : State :=
  let s1 := s.emit (.mVcm r.address r.rawWord)
  match s1.vcmIn with
  | [] => { s1 with vcmPending := some r }
  | a :: rest => ({ s1 with vcmIn := rest }).regWrite r.ddst (svOfWire a) r.rawWord

/-- The block with an outstanding request: it completes the LDMEM when the answer has come and waits otherwise
(R55). -/
def State.resumeVcm (s : State) (r : VcmRequest) : State :=
  match s.vcmIn with
  | [] => s
  | a :: rest => ({ s with vcmIn := rest, vcmPending := none }).regWrite r.ddst (svOfWire a) r.rawWord

/-- The hardware reset (R38, R210): the block's state as after reset, its inputs as they are. -/
def State.hardwareReset (s : State) : State :=
  { s.zeroFiles with seq := 0, cmd := [], vcmPending := none, out := [] }

end Sys2Proof.Machine
end

