-- ==== Sys2Proof/Machine/Fifo.lean ====
section
/-! DEFINITION. PUSHF, PUSHX (spec/42_fifo.md). -/

namespace Sys2Proof.Machine

/-- The entry a push makes: z forced to 1.0 unless texture-depth correction is on, all flags set, stamped with the
counter's value before the increment (R133). -/
def pushedEntry (m : Mode) (stamp : Word) (x y z rawPacked : Word) : ShadowValue :=
  { x := x, y := y, z := if m.tdc then z else fOne, raw := rawPacked, flags := fAll, seq := stamp }

/-- The V event of a push: the entry with the 2D key of R134, or the empty notification (R133). -/
def pushEvent (m : Mode) (rawPacked : Word) (v : ShadowValue) : Event :=
  if m.vc then .vCache (xHalf rawPacked) (yHalf rawPacked) v else .vEmpty

/-- The whole push: sample the mode once, stamp, increment SEQ, shift, notify (R133). -/
def State.push (s : State) (x y z rawPacked : Word) : State :=
  let m := s.sampledMode
  let new := pushedEntry m s.seq x y z rawPacked
  ((s.afterSample.bumpSeq).shift new).emit (pushEvent m rawPacked new)

/-- x or y of PUSHX: the fixed-point operand divided by 65536 (R135). -/
def fixedToF (v : DWord) : Word := fscale16 (i2f v.toInt)

/-- z of PUSHX: an integer-valued float, not divided (R135). -/
def integerToF (v : DWord) : Word := i2f v.toInt

/-- PUSHF x, y, z, rawPacked (R133). -/
def execPushf (x y z rawPacked : Word) (s : State) : Host.Outcome State Fault Refusal :=
  .next (s.push x y z rawPacked)

/-- PUSHX x16, y16, z16, rawPacked (R135). -/
def execPushx (x16 y16 z16 : DWord) (rawPacked : Word) (s : State) : Host.Outcome State Fault Refusal :=
  .next (s.push (fixedToF x16) (fixedToF y16) (integerToF z16) rawPacked)

end Sys2Proof.Machine
end

