-- ==== Sys2Proof/Machine/Nclip.lean ====
section
/-! DEFINITION. NCLIPV, NCLIP (spec/43_nclip.md). -/

namespace Sys2Proof.Machine

/-- `NCLIP_LO`, the binary32 nearest 0.1 (R6, R159). -/
def nclipLo : Word := 0x3DCCCCCD

/-- `NCLIP_HI`, 1.0 (R6). -/
def nclipHi : Word := fOne

/-- Twice the signed area before the correction, in the evaluation order of R157 and R158. -/
def signedArea (v0 v1 v2 : ShadowValue) : Word :=
  let s1 := fadd (fadd (fmul v0.x v1.y) (fmul v1.x v2.y)) (fmul v2.x v0.y)
  let s2 := fadd (fadd (fmul v0.x v2.y) (fmul v1.x v0.y)) (fmul v2.x v1.y)
  fsub s1 s2

/-- The correction on the open interval 0.1 < |a| < 1.0 (R157, R159). -/
def nclipCorrect (a : Word) : Word :=
  if flt nclipLo (fabs a) && flt (fabs a) nclipHi then
    (if flt a 0 then fadd a fMinusOne else fadd a fOne)
  else a

/-- The float result of NCLIP (R157). -/
def State.nclipResult (s : State) : Word :=
  nclipCorrect (signedArea (s.slot .data sxy0) (s.slot .data sxy1) (s.slot .data sxy2))

/-- The three Validates of NCLIPV, without short circuit (R156). -/
def State.validateFifo (s : State) (raw0 raw1 raw2 : Word) : State :=
  ((s.validateSlot .data sxy0 raw0).validateSlot .data sxy1 raw1).validateSlot .data sxy2 raw2

/-- All three FIFO slots are XY-valid (R156). -/
def State.fifoXyv (s : State) : Bool :=
  xyv (s.slot .data sxy0).flags && xyv (s.slot .data sxy1).flags && xyv (s.slot .data sxy2).flags

/-- A Boolean on the R channel: 1 or 0 (R52). -/
def boolWord (b : Bool) : Word := if b then 1 else 0

/-- NCLIPV raw0, raw1, raw2 (R156). -/
def execNclipv (raw0 raw1 raw2 : Word) (s : State) : Host.Outcome State Fault Refusal :=
  let s1 := s.validateFifo raw0 raw1 raw2
  .next (s1.emit (.resWord (boolWord s1.fifoXyv)))

/-- NCLIP (R157). -/
def execNclip (s : State) : Host.Outcome State Fault Refusal := .next (s.emit (.resWord s.nclipResult))

end Sys2Proof.Machine
end

