-- ==== Sys2Proof/Machine/Store.lean ====
section
/-! DEFINITION. INIT, SRD, SWR (spec/40_store.md). -/

namespace Sys2Proof.Machine

/-- INIT (R111): both files zero; SEQ and everything outside the block untouched. -/
def execInit (s : State) : Host.Outcome State Fault Refusal := .next s.zeroFiles

/-- SRD f, i (R112): direct slot access, no Validate, no head re-derive, no sink. -/
def execSrd (f : FileSel) (i : RegIdx) (s : State) : Host.Outcome State Fault Refusal :=
  .next (s.emit (.resSv (s.slot f i)))

/-- SWR f, i, v (R113): all six fields, no class rule. -/
def execSwr (f : FileSel) (i : RegIdx) (v : ShadowValue) (s : State) : Host.Outcome State Fault Refusal :=
  .next (s.writeSlot f i v)

end Sys2Proof.Machine
end

