-- ==== Sys2Proof/Machine/Transfer.lean ====
section
/-! DEFINITION. RDATA, WDATA, RCTRL, WCTRL, LDMEM, STMEM (spec/44_transfer.md). -/

namespace Sys2Proof.Machine

/-- Validate slot `F[i]` against the coprocessor-side value and send its copy with raw forced to the CPU-side value to
host slot `hdst`: the read pattern of R172 and R174. -/
def State.readTransfer (s : State) (f : FileSel) (i hdst : RegIdx) (rtVal rdVal : Word) : State :=
  let s1 := s.validateSlot f i rdVal
  s1.emit (.host hdst (withRaw (s1.slot f i) rtVal))

/-- The head re-derive of a read from index 15: `D[15] <- D[14]` when the parameter holds (R171). -/
def State.rederiveHead (s : State) (rederive : Bool) (dsrc : RegIdx) : State :=
  if dsrc = sxyp ∧ rederive = true then s.writeSlot .data sxyp (s.slot .data sxy2) else s

/-- RDATA for a given value of `HEAD_REDERIVE_ON_READ` (R172). -/
def execRdataWith (rederive : Bool) (dsrc hdst : RegIdx) (rtVal rdVal : Word) (s : State) :
    Host.Outcome State Fault Refusal :=
  .next ((s.rederiveHead rederive dsrc).readTransfer .data dsrc hdst rtVal rdVal)

/-- RDATA dsrc, hdst, rtVal, rdVal (R172). -/
def execRdata (dsrc hdst : RegIdx) (rtVal rdVal : Word) (s : State) : Host.Outcome State Fault Refusal :=
  execRdataWith Config.headRederiveOnRead dsrc hdst rtVal rdVal s

/-- WDATA hsrc, ddst, rdVal, rtVal, src (R173): the H event always, then the register-write rule. -/
def execWdata (hsrc ddst : RegIdx) (rdVal rtVal : Word) (src : ShadowValue) (s : State) :
    Host.Outcome State Fault Refusal :=
  let v := validate src rtVal
  .next ((s.emit (.host hsrc v)).regWrite ddst v rdVal)

/-- RCTRL csrc, hdst, rtVal, rdVal (R174): no head re-derive. -/
def execRctrl (csrc hdst : RegIdx) (rtVal rdVal : Word) (s : State) : Host.Outcome State Fault Refusal :=
  .next (s.readTransfer .ctrl csrc hdst rtVal rdVal)

/-- WCTRL hsrc, cdst, rdVal, rtVal, src (R175): a plain store for every index. -/
def execWctrl (hsrc cdst : RegIdx) (rdVal rtVal : Word) (src : ShadowValue) (s : State) :
    Host.Outcome State Fault Refusal :=
  let v := validate src rtVal
  .next ((s.emit (.host hsrc v)).writeSlot .ctrl cdst (withRaw v rdVal))

/-- LDMEM ddst, address, rawWord (R176). -/
def execLdmem (ddst : RegIdx) (address rawWord : Word) (s : State) : Host.Outcome State Fault Refusal :=
  .next (s.requestVcm ⟨ddst, address, rawWord⟩)

/-- STMEM dsrc, address, rawWord (R177): no head re-derive. -/
def execStmem (dsrc : RegIdx) (address rawWord : Word) (s : State) : Host.Outcome State Fault Refusal :=
  let s1 := s.validateSlot .data dsrc rawWord
  .next (s1.emit (.mWr (s1.slot .data dsrc) address))

end Sys2Proof.Machine
end

