-- ==== Sys2Proof/Machine/Validity.lean ====
section
/-! DEFINITION. VAL (spec/41_validate.md). -/

namespace Sys2Proof.Machine

/-- VAL f, i, w (R123). -/
def execVal (f : FileSel) (i : RegIdx) (w : Word) (s : State) : Host.Outcome State Fault Refusal :=
  .next (s.validateSlot f i w)

end Sys2Proof.Machine
end

