-- ==== Sys2Proof/Machine/Dispatch.lean ====
section
/-! DEFINITION. One arm per command (spec/30_encoding.md R84). -/

namespace Sys2Proof.Machine

def exec (i : Instr) (s : State) : Host.Outcome State Fault Refusal :=
  match i with
  | .init => Sys2Proof.Machine.execInit s
  | .srd f r => Sys2Proof.Machine.execSrd f r s
  | .swr f r v => Sys2Proof.Machine.execSwr f r v s
  | .val f r raw => Sys2Proof.Machine.execVal f r raw s
  | .rdata dsrc hdst rtVal rdVal => Sys2Proof.Machine.execRdata dsrc hdst rtVal rdVal s
  | .wdata hsrc ddst rdVal rtVal src => Sys2Proof.Machine.execWdata hsrc ddst rdVal rtVal src s
  | .rctrl csrc hdst rtVal rdVal => Sys2Proof.Machine.execRctrl csrc hdst rtVal rdVal s
  | .wctrl hsrc cdst rdVal rtVal src => Sys2Proof.Machine.execWctrl hsrc cdst rdVal rtVal src s
  | .ldmem ddst address rawWord => Sys2Proof.Machine.execLdmem ddst address rawWord s
  | .stmem dsrc address rawWord => Sys2Proof.Machine.execStmem dsrc address rawWord s
  | .pushf x y z rawPacked => Sys2Proof.Machine.execPushf x y z rawPacked s
  | .pushx x16 y16 z16 rawPacked => Sys2Proof.Machine.execPushx x16 y16 z16 rawPacked s
  | .nclipv raw0 raw1 raw2 => Sys2Proof.Machine.execNclipv raw0 raw1 raw2 s
  | .nclip => Sys2Proof.Machine.execNclip s

end Sys2Proof.Machine
end

