-- ==== Sys2Proof/Machine/Step.lean ====
section
/-! DEFINITION. One step of the block (spec/00_scope.md R8, R13; spec/30_encoding.md R85, R93; spec/20_memory.md R55;
spec/70_reset_and_hazards.md R210). -/

namespace Sys2Proof.Machine

/-- One step. While reset is asserted no command is accepted (R210). While a request is unanswered no later command
starts (R55). Otherwise the next whole packet is taken from CMD and executed; an incomplete packet makes the block
wait, holding its state (R93, log entry 2); a reserved header ends the run (R92, R194). -/
def step (s : State) : Host.Outcome State Fault Refusal :=
  if s.resetIn then .next s.hardwareReset
  else
    match s.vcmPending with
    | some r => .next (s.resumeVcm r)
    | none =>
      match decode s.cmd with
      | .incomplete => .next s
      | .reserved why => .fault (.reservedHeader why)
      | .instr i rest => exec i (s.withCmd rest)

/-- `s` with the instruction whose bits are `w` at the head of its command stream, so that the next step runs it: its
packet stands before the words already received, no reset is asserted and no request is outstanding (log entry 1). -/
def State.withFetchWord (s : State) (nbits w : Nat) : State :=
  { s with cmd := packetOf (tableWords nbits w) ++ s.cmd, vcmPending := none, resetIn := false }

end Sys2Proof.Machine
end

