-- ==== Sys2Proof/Machine/RefEnv.lean ====
section
/-! DEFINITION. The reference environment for tests, and for nothing else (spec/20_memory.md R72): host slots HS, memory
shadow MS, list VLOG, what the host sends from them, and the block run together with it. No step of the block uses it; a
real memory collaborator may answer otherwise (D26). -/

namespace Sys2Proof.Machine

/-- The reference environment. `ms` is a partial map from address to ShadowValue, kept with addresses strictly
rising (R72). -/
structure RefEnv where
  hs   : Vector ShadowValue 32
  ms   : List (Nat × ShadowValue)
  vlog : List Event
  deriving DecidableEq, Repr

/-- HS all zero, MS and VLOG empty (R72). -/
def RefEnv.start : RefEnv := ⟨Vector.replicate 32 ShadowValue.zero, [], []⟩

/-- The addresses of a memory shadow rise strictly. -/
abbrev msWf (m : List (Nat × ShadowValue)) : Prop := m.Pairwise (fun p q => p.1 < q.1)

/-- The shadow data persisted at an address, if any. -/
def msRead : List (Nat × ShadowValue) → Nat → Option ShadowValue
  | [], _ => none
  | (k, v) :: m, a => if k = a then some v else msRead m a

/-- `MS[a] <- v`. -/
def msWrite : List (Nat × ShadowValue) → Nat → ShadowValue → List (Nat × ShadowValue)
  | [], a, v => [(a, v)]
  | (k, u) :: m, a, v =>
    if a < k then (a, v) :: (k, u) :: m
    else if a = k then (a, v) :: m
    else (k, u) :: msWrite m a v

/-- What the environment does on an event (R72). -/
def RefEnv.observe (e : RefEnv) (ev : Event) : RefEnv :=
  match ev with
  | .host idx v => { e with hs := e.hs.set idx v }
  | .mWr v a => { e with ms := msWrite e.ms a.toNat v }
  | .vCache kx ky v => { e with vlog := e.vlog ++ [.vCache kx ky v] }
  | .vEmpty => { e with vlog := e.vlog ++ [.vEmpty] }
  | .resSv _ => e
  | .resWord _ => e
  | .mVcm _ _ => e

/-- The answer to `M.vcm(a, w)`: `Validate(MS[a], w)` when MS[a] is present, else `Degrade(w)` (R72). -/
def RefEnv.answer (e : RefEnv) (a w : Word) : ShadowValue :=
  match msRead e.ms a.toNat with
  | some v => validate v w
  | none => degrade w

/-- The WDATA the host sends: its payload is `HS[hsrc]` (R51, R72). -/
def RefEnv.sendWdata (e : RefEnv) (hsrc ddst : RegIdx) (rdVal rtVal : Word) : Instr :=
  .wdata hsrc ddst rdVal rtVal e.hs[hsrc]

/-- The WCTRL the host sends: its payload is `HS[hsrc]` (R51, R72). -/
def RefEnv.sendWctrl (e : RefEnv) (hsrc cdst : RegIdx) (rdVal rtVal : Word) : Instr :=
  .wctrl hsrc cdst rdVal rtVal e.hs[hsrc]

/-- The answer the environment gives on an event: to `M.vcm` only (R54, R72). -/
def RefEnv.reply (e : RefEnv) (ev : Event) : List SvWire :=
  match ev with
  | .mVcm a w => [svToWire (e.answer a w)]
  | .host _ _ => []
  | .resSv _ => []
  | .resWord _ => []
  | .vCache _ _ _ => []
  | .vEmpty => []
  | .mWr _ _ => []

/-- The block and the reference environment together. -/
structure Bench where
  env   : RefEnv
  block : State
  deriving DecidableEq, Repr

/-- The start of a program of 95_test_vectors.md: the environment at its start, the block after reset. -/
def Bench.start : Bench := ⟨RefEnv.start, State.reset⟩

/-- The host sends a command: its packet follows the words already on CMD (R60). -/
def Bench.send (b : Bench) (i : Instr) : Bench :=
  { b with block := b.block.withCmd (b.block.cmd ++ encode i) }

/-- The environment takes one event: it acts on it, and its answer, if any, goes to the block's response input
(R54, R72). -/
def Bench.serve (b : Bench) (ev : Event) : Bench :=
  { env := b.env.observe ev
    block := { b.block with vcmIn := b.block.vcmIn ++ b.env.reply ev } }

/-- One step of the block, then the environment takes the events of that step in order (R71, R72; log entry 11). -/
def Bench.step (b : Bench) : Host.Outcome Bench Fault Refusal :=
  match Machine.step b.block with
  | .next t => .next ((t.out.drop b.block.out.length).foldl Bench.serve ⟨b.env, t⟩)
  | .fault r => .fault r
  | .refused r => .refused r

end Sys2Proof.Machine
end

