-- ==== Sys2Proof/Safety.lean ====
section
/-! DEFINITION. The terms the claims are stated in: what stays unchanged, what a push and a register write do, which
slots and channels a command may touch, the invariants every step keeps, the contract of the memory collaborator. -/

namespace Sys2Proof.Machine

/-- The stream, the outstanding request and every input are as before. -/
def SameInputs (s t : State) : Prop :=
  t.cmd = s.cmd ∧ t.vcmPending = s.vcmPending ∧ t.mode = s.mode ∧ t.modeIn = s.modeIn ∧ t.vcmIn = s.vcmIn ∧
    t.resetIn = s.resetIn

/-- The stream, the outstanding request and every input but the mode levels are as before. -/
def SameInputsButMode (s t : State) : Prop :=
  t.cmd = s.cmd ∧ t.vcmPending = s.vcmPending ∧ t.vcmIn = s.vcmIn ∧ t.resetIn = s.resetIn

/-- Every slot of one file is as before. -/
def SameFile (f : FileSel) (s t : State) : Prop := ∀ j, t.slot f j = s.slot f j

/-- Slot `F[i]` holds `v` and every other slot of both files is as before. -/
def OnlySlot (f : FileSel) (i : RegIdx) (v : ShadowValue) (s t : State) : Prop :=
  t.slot f i = v ∧ ∀ g j, (g, j) ≠ (f, i) → t.slot g j = s.slot g j

/-- The effect of `Shift(v)` on both files (R130). -/
def Shifted (v : ShadowValue) (s t : State) : Prop :=
  t.slot .data 12 = s.slot .data 13 ∧ t.slot .data 13 = s.slot .data 14 ∧ t.slot .data 14 = v ∧
    t.slot .data 15 = v ∧ (∀ j : RegIdx, j.val < 12 ∨ 15 < j.val → t.slot .data j = s.slot .data j) ∧
    SameFile .ctrl s t

/-- The effect of `RegWrite(i, v, w)` on both files (R131). -/
def RegWritten (i : RegIdx) (v : ShadowValue) (w : Word) (s t : State) : Prop :=
  (i = 15 → Shifted v s t) ∧
    (i = 31 → SameFile .data s t ∧ SameFile .ctrl s t) ∧
    (i ≠ 15 → i ≠ 31 → OnlySlot .data i { v with raw := w } s t)

/-- The entry that PUSHF makes: z as given under texture-depth correction and 1.0 otherwise, all flags set (R133). -/
def entryMade (tdc : Bool) (x y z rawPacked stamp : Word) : ShadowValue :=
  { x := x, y := y, z := if tdc = true then z else 0x3F800000, raw := rawPacked, flags := 0b111, seq := stamp }

/-- The effect of a push by PUSHF on the whole state (R133, R134), with the mode levels sampled and kept as log entry 3
says. -/
def PushedBy (x y z rawPacked : Word) (s t : State) : Prop :=
  let m := s.modeIn.headD s.mode
  let new := entryMade m.tdc x y z rawPacked s.seq
  Shifted new s t ∧ t.seq = s.seq + 1 ∧
    t.out = s.out ++ [if m.vc = true then
      .vCache (rawPacked.extractLsb' 0 16) (rawPacked.extractLsb' 16 16) new else .vEmpty] ∧
    t.mode = m ∧ t.modeIn = s.modeIn.tail ∧ SameInputsButMode s t

/-- A header word as a number: OP in bits 31:24, RA in 20:16, RB in 12:8, F in 0 (R81, R84). -/
def headerNumber (op ra rb f : Nat) : Word := BitVec.ofNat 32 (op * 2 ^ 24 + ra * 2 ^ 16 + rb * 2 ^ 8 + f)

/-- F as a number (R81). -/
def fileNumber : FileSel → Nat
  | .data => 0
  | .ctrl => 1

/-- A packet has this header word and this many words, header included (R84). -/
def EncodedAs (i : Instr) (header : Word) (length : Nat) : Prop :=
  encodeHeader i = header ∧ (encode i).length = length

/-- The commands that push by PUSHF's rule: the only ones that read or move SEQ and sample the mode (R31, R33). -/
def pushes : Instr → Bool
  | .pushf _ _ _ _ => true
  | .pushx _ _ _ _ => true
  | .init => false
  | .srd _ _ => false
  | .swr _ _ _ => false
  | .val _ _ _ => false
  | .rdata _ _ _ _ => false
  | .wdata _ _ _ _ _ => false
  | .rctrl _ _ _ _ => false
  | .wctrl _ _ _ _ _ => false
  | .ldmem _ _ _ => false
  | .stmem _ _ _ => false
  | .nclipv _ _ _ => false
  | .nclip => false

/-- The data slots a register write to index `i` may change (R26, R131). -/
def regWrites (i j : RegIdx) : Bool :=
  if i = 15 then decide (12 ≤ j.val ∧ j.val ≤ 15) else if i = 31 then false else decide (j = i)

/-- The slots a command may change: the "writes" columns of R28 and R30. -/
def mayWrite : Instr → FileSel → RegIdx → Bool
  | .init, _, _ => true
  | .srd _ _, _, _ => false
  | .swr f i _, g, j => decide (g = f ∧ j = i)
  | .val f i _, g, j => decide (g = f ∧ j = i)
  | .rdata dsrc _ _ _, g, j => decide (g = .data ∧ j = dsrc)
  | .wdata _ ddst _ _ _, g, j => decide (g = .data) && regWrites ddst j
  | .rctrl csrc _ _ _, g, j => decide (g = .ctrl ∧ j = csrc)
  | .wctrl _ cdst _ _ _, g, j => decide (g = .ctrl ∧ j = cdst)
  | .ldmem ddst _ _, g, j => decide (g = .data) && regWrites ddst j
  | .stmem dsrc _ _, g, j => decide (g = .data ∧ j = dsrc)
  | .pushf _ _ _ _, g, j => decide (g = .data ∧ 12 ≤ j.val ∧ j.val ≤ 15)
  | .pushx _ _ _ _, g, j => decide (g = .data ∧ 12 ≤ j.val ∧ j.val ≤ 15)
  | .nclipv _ _ _, g, j => decide (g = .data ∧ 12 ≤ j.val ∧ j.val ≤ 14)
  | .nclip, _, _ => false

/-- The channels of the events a command emits, in order (R71, R84). -/
def channelsOf : Instr → List Channel
  | .init => []
  | .srd _ _ => [.R]
  | .swr _ _ _ => []
  | .val _ _ _ => []
  | .rdata _ _ _ _ => [.H]
  | .wdata _ _ _ _ _ => [.H]
  | .rctrl _ _ _ _ => [.H]
  | .wctrl _ _ _ _ _ => [.H]
  | .ldmem _ _ _ => [.M]
  | .stmem _ _ _ => [.M]
  | .pushf _ _ _ _ => [.V]
  | .pushx _ _ _ _ => [.V]
  | .nclipv _ _ _ => [.R]
  | .nclip => [.R]

/-- The commands after which a slot may carry flags it did not carry before: whole-value writes and pushes, and the
head re-derive (R35, R171). -/
def installsFlags : Instr → Bool
  | .init => false
  | .srd _ _ => false
  | .swr _ _ _ => true
  | .val _ _ _ => false
  | .rdata dsrc _ _ _ => decide (dsrc = 15)
  | .wdata _ _ _ _ _ => true
  | .rctrl _ _ _ _ => false
  | .wctrl _ _ _ _ _ => true
  | .ldmem _ _ _ => true
  | .stmem _ _ _ => false
  | .pushf _ _ _ _ => true
  | .pushx _ _ _ _ => true
  | .nclipv _ _ _ => false
  | .nclip => false

/-- The entry that a command pushes when it is executed in `s`, if it pushes: PUSHF, PUSHX, a WDATA or an answered LDMEM
to index 15 (R132, R137, R216). -/
def pushOf (i : Instr) (s : State) : Option ShadowValue :=
  match i with
  | .pushf x y z rp => some (entryMade (s.modeIn.headD s.mode).tdc x y z rp s.seq)
  | .pushx x y z rp =>
    some (entryMade (s.modeIn.headD s.mode).tdc (fscale16 (i2f x.toInt)) (fscale16 (i2f y.toInt)) (i2f z.toInt) rp s.seq)
  | .wdata _ ddst _ rt src => if ddst = 15 then some (if src.raw = rt then src else degrade rt) else none
  | .ldmem ddst _ _ => if ddst = 15 then s.vcmIn.head?.map svOfWire else none
  | .init => none
  | .srd _ _ => none
  | .swr _ _ _ => none
  | .val _ _ _ => none
  | .rdata _ _ _ _ => none
  | .rctrl _ _ _ _ => none
  | .wctrl _ _ _ _ _ => none
  | .stmem _ _ _ => none
  | .nclipv _ _ _ => none
  | .nclip => none

/-- The commands whose writes reach the FIFO by a push, if at all (R132). -/
def pushOnly : Instr → Bool
  | .pushf _ _ _ _ => true
  | .pushx _ _ _ _ => true
  | .wdata _ ddst _ _ _ => decide (ddst = 15)
  | .ldmem ddst _ _ => decide (ddst = 15)
  | .init => false
  | .srd _ _ => false
  | .swr _ _ _ => false
  | .val _ _ _ => false
  | .rdata _ _ _ _ => false
  | .rctrl _ _ _ _ => false
  | .wctrl _ _ _ _ _ => false
  | .stmem _ _ _ => false
  | .nclipv _ _ _ => false
  | .nclip => false

/-- A command that writes D[12], D[13], D[14] by a push or not at all: R137's proviso. -/
def keepsFifoOrder (i : Instr) : Prop :=
  pushOnly i = true ∨ ∀ j : RegIdx, 12 ≤ j.val ∧ j.val ≤ 14 → mayWrite i .data j = false

/-- The entries that a list of commands pushes, oldest first. -/
def pushesOf : List Instr → State → List ShadowValue
  | [], _ => []
  | i :: is, s =>
    (pushOf i s).toList ++
      match exec i s with
      | .next t => pushesOf is t
      | .fault _ => []
      | .refused _ => []

/-- The three entries of the FIFO, oldest first (R27). -/
def fifoEntries (s : State) : List ShadowValue := [s.slot .data 12, s.slot .data 13, s.slot .data 14]

/-- The infinity of a sign (R150). -/
def infinityOf (neg : Bool) : Word := if neg then 0xFF800000 else 0x7F800000

/-- The zero of a sign (R150). -/
def zeroOf (neg : Bool) : Word := if neg then 0x80000000 else 0x00000000

/-- Either zero. -/
def isZero (a : Word) : Bool := a == 0x00000000 || a == 0x80000000

/-- Every flag set in `a` is set in `b` (R124 (d)). -/
def FlagsWithin (a b : FlagBits) : Prop := ∀ k, a.getLsbD k = true → b.getLsbD k = true

/-- Commands executed one after another (R60, R66). -/
def execAll : List Instr → State → Host.Outcome State Fault Refusal
  | [], s => .next s
  | i :: is, s =>
    match exec i s with
    | .next t => execAll is t
    | .fault r => .fault r
    | .refused r => .refused r

/-- The commands that take an answer of the memory collaborator: LDMEM only (R54). -/
def takesAnswer : Instr → Bool
  | .ldmem _ _ _ => true
  | .init => false
  | .srd _ _ => false
  | .swr _ _ _ => false
  | .val _ _ _ => false
  | .rdata _ _ _ _ => false
  | .wdata _ _ _ _ _ => false
  | .rctrl _ _ _ _ => false
  | .wctrl _ _ _ _ _ => false
  | .stmem _ _ _ => false
  | .pushf _ _ _ _ => false
  | .pushx _ _ _ _ => false
  | .nclipv _ _ _ => false
  | .nclip => false

/-- `SAVE` (R97): the 64 slot reads, D then C. -/
def saveCommands : List Instr :=
  (List.finRange 32).map (fun i => .srd .data i) ++ (List.finRange 32).map (fun i => .srd .ctrl i)

/-- `RESTORE` (R97): the 64 matching slot writes with the values saved from `s`. -/
def restoreCommands (s : State) : List Instr :=
  (List.finRange 32).map (fun i => .swr .data i (s.slot .data i)) ++
    (List.finRange 32).map (fun i => .swr .ctrl i (s.slot .ctrl i))

/-- SEQ counts the pushes: one V event each since reset, modulo 2^32 (R31, R133, R138, R202). -/
def SeqCountsPushes (s : State) : Prop :=
  s.seq = BitVec.ofNat 32 (s.out.countP (fun e => e.channel = .V))

/-- An outstanding request is the last event sent: nothing was sent after it (R55, R66). -/
def RequestIsLastEvent (s : State) : Prop :=
  ∀ r, s.vcmPending = some r → s.out.getLast? = some (.mVcm r.address r.rawWord)

/-- The machine's invariant. -/
def Inv (s : State) : Prop := SeqCountsPushes s ∧ RequestIsLastEvent s

/-- Host slot `HS[h]` holds `v` and every other host slot is as before (R51, R72). -/
def OnlyHostSlot (h : RegIdx) (v : ShadowValue) (e e' : RefEnv) : Prop :=
  e'.hs[h] = v ∧ ∀ k : RegIdx, k ≠ h → e'.hs[k] = e.hs[k]

/-- The contract the block assumes of an answer `v` to `M.vcm(a, w)` and does not check (R54), where `persisted` is
the shadow data persisted at `a`, if any. -/
def VcmContract (persisted : Option ShadowValue) (w : Word) (v : ShadowValue) : Prop :=
  v.raw = w ∧ (persisted = some v ∨ v = degrade w)

end Sys2Proof.Machine
end

