-- ==== Sys2Proof/Certificates/Slice0/Obligations.lean ====
section
/-! DEFINITION. The statements for the provers. Each docstring names the rules of spec/ it formalises. A rule the spec
marks "[decision: D<n>]" is the spec's own choice and is named so. -/

open Sys2Proof Sys2Proof.Machine

/-! ### Encoding and decoding -/

/-- Decoding an encoded command gives the command back and leaves the words after it: no bit of any operand of any of
the 14 commands is dropped (30_encoding.md R80 to R91; encoding decisions D13, D14). -/
def Obligations.DecodeEncodeRoundTrip : Prop :=
  ∀ (i : Instr) (rest : List Word), i.wellFormed = true → decode (encode i ++ rest) = .instr i rest

/-- A stream that decodes to a command begins with that command's own packet, word for word, but for bits 31:3 of the
flags word of an SV operand, which are ignored (R84, R85, R89). -/
def Obligations.DecodedPacketIsEncoding : Prop :=
  ∀ (ws rest : List Word) (i : Instr), decode ws = .instr i rest →
    ∃ pkt, ws = pkt ++ rest ∧ pkt.length = (encode i).length ∧ pkt.head? = (encode i).head? ∧
      ∀ k < pkt.length, (pkt[k]? = (encode i)[k]?) ∨
        (((∃ f r v, i = .swr f r v ∧ k = 5) ∨ (∃ a b rd rt v, i = .wdata a b rd rt v ∧ k = 7) ∨
            (∃ a b rd rt v, i = .wctrl a b rd rt v ∧ k = 7)) ∧
          (pkt[k]?.map (fun w => w &&& 7) = (encode i)[k]?))

/-- A header word selects a row of the command table exactly when its fields are well formed: every reserved encoding
is refused and nothing else (R82, R85, R92). -/
def Obligations.RowSelectedIffWellFormed : Prop :=
  ∀ h : Word, (selectRow h).isSome = (headerFields h).wellFormed

/-- At most one row of the command table fits a header word (R85). -/
def Obligations.AtMostOneRowFits : Prop :=
  ∀ (h : Word) (r q : OpRow), r ∈ opTable → q ∈ opTable → r.selects h = true → q.selects h = true → r = q

/-- The name given to a reserved header is a defect it has: the model's naming (log entry 7) of what R92 lists. -/
def Obligations.ReservedReasonIsADefect : Prop :=
  ∀ w : Word, (headerFields w).wellFormed = false →
    match whyReserved w with
    | .undefinedOp => (headerFields w).opDefined = false
    | .nonzeroZ1 => (headerFields w).z1 ≠ 0
    | .nonzeroZ2 => (headerFields w).z2 ≠ 0
    | .nonzeroZ3 => (headerFields w).z3 ≠ 0
    | .unusedRa => (headerFields w).usesRa = false ∧ (headerFields w).ra ≠ 0
    | .unusedRb => (headerFields w).usesRb = false ∧ (headerFields w).rb ≠ 0
    | .unusedF => (headerFields w).usesF = false ∧ (headerFields w).f ≠ 0

/-- A packet's length is its row's length: 1, 2, 3, 4, 5, 7, 8 or 9 words, fixed by OP alone (R80, R84, R95). -/
def Obligations.PacketLengthFixedByOpcode : Prop :=
  ∀ i : Instr, (encode i).length ∈ [1, 2, 3, 4, 5, 7, 8, 9] ∧
    ∃ r ∈ opTable, r.selects (encodeHeader i) = true ∧ (encode i).length = r.length

/-- Words written out from the spec's encodings decode to the commands they stand for (R84; examples of R112, R113,
R123, R133, R156, R172, R176, R177; encoding decision D13). -/
def Obligations.SampleWordsDecode : Prop :=
  decode [0x01000000] = .instr .init [] ∧
    decode [0x021F0001] = .instr (.srd .ctrl 31) [] ∧
    decode [0x03030001, 0x3FC00000, 0xC0000000, 0x00000000, 0x00000007, 0x00000003, 0x00000009] =
      .instr (.swr .ctrl 3 ⟨0x3FC00000, 0xC0000000, 0x00000000, 0x00000007, 0b011, 9⟩) [] ∧
    decode [0x04050000, 0xFFFF0003] = .instr (.val .data 5 0xFFFF0003) [] ∧
    decode [0x050E0800, 0x12345678, 0x00020001] = .instr (.rdata 14 8 0x12345678 0x00020001) [] ∧
    decode [0x09000E00, 0x1F800010, 0x00020001] = .instr (.ldmem 14 0x1F800010 0x00020001) [] ∧
    decode [0x0A0E0000, 0x1F800010, 0x00020001] = .instr (.stmem 14 0x1F800010 0x00020001) [] ∧
    decode [0x0B000000, 0x3FC00000, 0x40100000, 0x40E00000, 0x00020001] =
      .instr (.pushf 0x3FC00000 0x40100000 0x40E00000 0x00020001) [] ∧
    decode [0x0D000000, 0x00000000, 0x00000001, 0x00010000] = .instr (.nclipv 0 1 0x00010000) [] ∧
    decode [0x020E0100] = .reserved .unusedRb

/-- A ShadowValue sent is read back whole; the flags word is sent with bits 31:3 zero and read by its bits 2:0 alone
(R57, R89; layout decision D14). -/
def Obligations.WireLayoutOfShadowValue : Prop :=
  (∀ v : ShadowValue, svWords v = [v.x, v.y, v.z, v.raw, v.flags.setWidth 32, v.seq] ∧
      (v.flags.setWidth 32 : Word) >>> 3 = 0 ∧ svOfWire (svToWire v) = v) ∧
    ∀ w0 w1 w2 w3 w4 w5 : Word, svOfWire ⟨w0, w1, w2, w3, w4, w5⟩ = ⟨w0, w1, w2, w3, w4.extractLsb' 0 3, w5⟩

/-! ### The step -/

/-- When the words received begin with a whole packet, no reset is asserted and no request is outstanding, the step is
exec of the decoded command, with the packet's words taken from the stream (R60, R85). -/
def Obligations.StepRunsDecodedCommand : Prop :=
  ∀ (s : State) (i : Instr) (rest : List Word), s.resetIn = false → s.vcmPending = none →
    decode s.cmd = .instr i rest → step s = exec i { s with cmd := rest }

/-- The step faults exactly on a reserved header, reached with no reset asserted and no request outstanding, and is
never refused (R92, R94, R190, R194; fault decision D16). -/
def Obligations.StepFaultsOnlyOnReservedHeader : Prop :=
  (∀ s : State, (∃ r, step s = .fault r) ↔
      (s.resetIn = false ∧ s.vcmPending = none ∧
        ∃ h ws, s.cmd = h :: ws ∧ (headerFields h).wellFormed = false)) ∧
    ∀ (s : State) (r : Refusal), step s ≠ .refused r

/-- An incomplete packet makes the block wait and executes nothing of the command; a hardware reset while waiting
discards it (R93; decision D16; that waiting is a next state equal to the old one is the model's choice, log
entry 2). -/
def Obligations.IncompletePacketWaits : Prop :=
  ∀ (s : State) (i : Instr) (k : Nat), s.vcmPending = none → k < (encode i).length → s.cmd = (encode i).take k →
    (s.resetIn = false → step s = .next s) ∧
      (s.resetIn = true → ∃ t, step s = .next t ∧ t.cmd = [] ∧ ∀ f j, t.slot f j = ShadowValue.zero)

/-- A CMD stream executes as its list of commands, one step a command, in order of arrival: the effects of command n
all happen before any effect of command n + 1 (R60, R66, R85). The premise gives every LDMEM its answer. -/
def Obligations.StreamRunsCommandsInOrder : Prop :=
  ∀ (is : List Instr) (rest : List Word) (s : State), s.resetIn = false → s.vcmPending = none →
    is.countP takesAnswer ≤ s.vcmIn.length →
    Host.Core.run Sys2Proof.core is.length { s with cmd := is.flatMap encode ++ rest } =
      execAll is { s with cmd := rest }

/-- Every one of the 14 commands completes for every value of every operand, in every state (R190, R178; LDMEM sends
its request, and waits when it has no answer: R55). -/
def Obligations.EveryCommandAnswersNext : Prop :=
  ∀ (i : Instr) (s : State), ∃ t, exec i s = .next t

/-! ### Reset -/

/-- The state after hardware reset: every field of every entry zero, SEQ zero, no partial packet, no outstanding
request, no pending event (R38, R210, R211; decision D20). -/
def Obligations.ResetStateIsZero : Prop :=
  (∀ f i, State.reset.slot f i = ⟨0x00000000, 0x00000000, 0x00000000, 0x00000000, 0b000, 0x00000000⟩) ∧
    State.reset.seq = 0x00000000 ∧ State.reset.cmd = [] ∧ State.reset.vcmPending = none ∧ State.reset.out = []

/-- While reset is asserted the block accepts no command, whatever stands on CMD and whatever request is outstanding;
its own state is that after reset and its inputs are as they were (R210; decision D20; that words already received are
dropped with the partial packet is log entry 8). -/
def Obligations.HardwareResetStep : Prop :=
  ∀ s : State, s.resetIn = true → ∃ t, step s = .next t ∧ (∀ f i, t.slot f i = ShadowValue.zero) ∧ t.seq = 0 ∧
    t.cmd = [] ∧ t.vcmPending = none ∧ t.out = [] ∧
    t.mode = s.mode ∧ t.modeIn = s.modeIn ∧ t.vcmIn = s.vcmIn ∧ t.resetIn = true

/-! ### Invariants -/

/-- The invariant holds at reset. -/
def Obligations.ResetKeepsCountAndRequest : Prop := Inv State.reset

/-- Every step keeps the invariant, from every state that has it: SEQ is the number of V events sent since reset modulo
2^32 (only PUSHF and PUSHX move SEQ, and each sends one V event: R31, R133, R138, R202), and an outstanding request is
the last event sent (no command starts while it is unanswered: R55, R66). That the V events are held since reset is
the model's record (log entry 5). -/
def Obligations.StepKeepsCountAndRequest : Prop :=
  ∀ s t : State, Inv s → step s = .next t → Inv t

/-! ### INIT, SRD, SWR -/

/-- INIT zeroes both files and nothing else (R111): SEQ unchanged, no event. -/
def Obligations.InitZeroesBothFiles : Prop :=
  EncodedAs .init 0x01000000 1 ∧
    ∀ s : State, ∃ t, exec .init s = .next t ∧
      (∀ f i, t.slot f i = ⟨0x00000000, 0x00000000, 0x00000000, 0x00000000, 0b000, 0x00000000⟩) ∧
      t.seq = s.seq ∧ t.out = s.out ∧ SameInputs s t

/-- SRD sends the slot as stored, as six words with bits 31:3 of the flags word zero, and changes no state, for every
file and index (R112). -/
def Obligations.SrdReturnsSlotAsStored : Prop :=
  ∀ (f : FileSel) (i : RegIdx) (s : State),
    EncodedAs (.srd f i) (headerNumber 0x02 i.val 0 (fileNumber f)) 1 ∧
    (Event.resSv (s.slot f i)).words = [(s.slot f i).x, (s.slot f i).y, (s.slot f i).z, (s.slot f i).raw,
      BitVec.ofNat 32 (s.slot f i).flags.toNat, (s.slot f i).seq] ∧
    ∃ t, exec (.srd f i) s = .next t ∧ t.out = s.out ++ [.resSv (s.slot f i)] ∧
      SameFile .data s t ∧ SameFile .ctrl s t ∧ t.seq = s.seq ∧ SameInputs s t

/-- SWR stores all six fields of the payload in the named slot, 12 to 15 and 31 like any other, and changes nothing
else (R113). -/
def Obligations.SwrStoresWholeSlot : Prop :=
  ∀ (f : FileSel) (i : RegIdx) (v : ShadowValue) (s : State),
    EncodedAs (.swr f i v) (headerNumber 0x03 i.val 0 (fileNumber f)) 7 ∧
    ∃ t, exec (.swr f i v) s = .next t ∧ OnlySlot f i v s t ∧ t.seq = s.seq ∧ t.out = s.out ∧ SameInputs s t

/-- SAVE sends every slot and changes none; RESTORE of what was saved makes both files those of the saved state,
whatever they were before, and leaves SEQ alone (R37, R58, R97, R214; decision D31). -/
def Obligations.SaveThenRestoreCarriesFiles : Prop :=
  (∀ s : State, ∃ t, execAll saveCommands s = .next t ∧
      t.out = s.out ++ ((List.finRange 32).map (fun i => Event.resSv (s.slot .data i)) ++
        (List.finRange 32).map (fun i => Event.resSv (s.slot .ctrl i))) ∧
      SameFile .data s t ∧ SameFile .ctrl s t ∧ t.seq = s.seq ∧ SameInputs s t) ∧
    ∀ s u : State, ∃ t, execAll (restoreCommands s) u = .next t ∧ SameFile .data s t ∧ SameFile .ctrl s t ∧
      t.seq = u.seq ∧ t.out = u.out ∧ SameInputs u t

/-! ### The validity protocol -/

/-- The laws of Validate (R124, derived in the spec from R120 and R121). -/
def Obligations.ValidateLaws : Prop :=
  (∀ s w, (validate s w).raw = w) ∧
    (∀ s w, validate (validate s w) w = validate s w) ∧
    (∀ s w, s.raw ≠ w → (validate s w).flags = 0b000 ∧ xyv (validate s w).flags = false) ∧
    (∀ s w, s.raw = w → validate s w = s) ∧
    (∀ s w, FlagsWithin (validate s w).flags s.flags) ∧
    (∀ (s : ShadowValue) (ws : List Word), s.flags = 0b000 → (ws.foldl validate s).flags = 0b000) ∧
    (∀ u w, validate (degrade u) w = if u = w then degrade u else degrade w)

/-- Degrade(w): x and y are exactly the signed low and high halves, z is +0.0, raw is w, flags and seq are zero (R120 by
decision D6, which the model follows whole: log entry 10, DEDUCED; binary32 as in log entry 9, PRESUMED). `fval` is the
value in units of 2^-149; with the sign it fixes the pattern (a zero half gives +0.0). -/
def Obligations.DegradeGivesSignedHalves : Prop :=
  ∀ w : Word,
    fval (degrade w).x = (w.extractLsb' 0 16).toInt * 2 ^ 149 ∧ isFinite (degrade w).x = true ∧
      fsign (degrade w).x = decide ((w.extractLsb' 0 16).toInt < 0) ∧
      fval (degrade w).y = (w.extractLsb' 16 16).toInt * 2 ^ 149 ∧ isFinite (degrade w).y = true ∧
      fsign (degrade w).y = decide ((w.extractLsb' 16 16).toInt < 0) ∧
      (degrade w).z = 0x00000000 ∧ (degrade w).raw = w ∧ (degrade w).flags = 0b000 ∧ (degrade w).seq = 0x00000000

/-- VAL leaves a slot whose raw matches as it is and replaces any other by Degrade of the operand, on either file and
at every index (R123 with R121; decisions D7, D25). -/
def Obligations.ValKeepsOrDegradesSlot : Prop :=
  ∀ (f : FileSel) (i : RegIdx) (w : Word) (s : State),
    EncodedAs (.val f i w) (headerNumber 0x04 i.val 0 (fileNumber f)) 2 ∧
    ∃ t, exec (.val f i w) s = .next t ∧
      OnlySlot f i (if (s.slot f i).raw = w then s.slot f i else degrade w) s t ∧
      t.seq = s.seq ∧ t.out = s.out ∧ SameInputs s t

/-! ### The FIFO -/

/-- Shift moves whole entries: SXY1 to SXY0, SXY2 to SXY1, the new value to SXY2 and SXYP (R130). -/
def Obligations.ShiftMovesWholeEntries : Prop :=
  ∀ (s : State) (v : ShadowValue), Shifted v s (s.shift v) ∧ (s.shift v).seq = s.seq ∧
    (s.shift v).out = s.out ∧ SameInputs s (s.shift v)

/-- The register-write rule: index 15 pushes the value as it is, index 31 discards it, every other index stores it with
raw forced; no stamp, no event (R131; the classes of R26). -/
def Obligations.RegisterWriteRule : Prop :=
  ∀ (s : State) (i : RegIdx) (v : ShadowValue) (w : Word), RegWritten i v w s (s.regWrite i v w) ∧
    (s.regWrite i v w).seq = s.seq ∧ (s.regWrite i v w).out = s.out ∧ SameInputs s (s.regWrite i v w)

/-- PUSHF stamps, shifts and notifies (R133, R134; decisions D8, D15): z is 1.0 unless MODE.TDC, flags all set, the
stamp is SEQ before its increment, one V event by MODE.VC. That the levels sampled are the head of `modeIn` and become
the levels held is the model's choice (log entry 3). -/
def Obligations.PushfStampsShiftsNotifies : Prop :=
  ∀ (x y z rawPacked : Word) (s : State),
    EncodedAs (.pushf x y z rawPacked) 0x0B000000 5 ∧
    ∃ t, exec (.pushf x y z rawPacked) s = .next t ∧ PushedBy x y z rawPacked s t

/-- PUSHX is PUSHF on the converted operands: x16 / 65536, y16 / 65536, z16 (R135; decision D5). How the mode levels are
sampled and kept is the model's choice (log entry 3). -/
def Obligations.PushxConvertsThenPushes : Prop :=
  ∀ (x16 y16 z16 : DWord) (rawPacked : Word) (s : State),
    EncodedAs (.pushx x16 y16 z16 rawPacked) 0x0C000000 8 ∧
    ∃ t, exec (.pushx x16 y16 z16 rawPacked) s = .next t ∧
      PushedBy (fscale16 (i2f x16.toInt)) (fscale16 (i2f y16.toInt)) (i2f z16.toInt) rawPacked s t

/-- Convert, then divide by 65536, is one correctly rounded conversion of n / 65536; the result is zero or normal; for
|n| < 2^24 it is exact (R136, derived in the spec from R135). `roundMag` takes units of 2^-298, so |n| / 65536 is
|n| * 2^282 of them. -/
def Obligations.FixedPointConversionRoundsOnce : Prop :=
  ∀ v : DWord,
    fscale16 (i2f v.toInt) = packF (decide (v.toInt < 0)) (roundMag (v.toInt.natAbs * 2 ^ 282)) ∧
      (v.toInt ≠ 0 → 1 ≤ fexp (fscale16 (i2f v.toInt)) ∧ fexp (fscale16 (i2f v.toInt)) < 255) ∧
      (v.toInt.natAbs < 2 ^ 24 → fval (fscale16 (i2f v.toInt)) * 2 ^ 16 = v.toInt * 2 ^ 149)

/-- The FIFO holds the last three pushes (R137, derived in the spec from R130). First: three PUSHF in a row, from any
state, leave whole entries with z by the mode levels each found (log entry 3) and three consecutive stamps. Second: after
any list of commands that write D[12], D[13], D[14] by pushes only (PUSHF, PUSHX, WDATA or LDMEM to 15, in any mixture)
the FIFO holds the last three of the entries it held and the entries pushed; so from reset after one push SXY1 and SXY0
are zero. Third: immediately after each push D[15] and D[14] are the entry. -/
def Obligations.FifoHoldsLastThreePushes : Prop :=
  (∀ (x0 y0 z0 r0 x1 y1 z1 r1 x2 y2 z2 r2 : Word) (s : State), ∃ t,
    execAll [.pushf x0 y0 z0 r0, .pushf x1 y1 z1 r1, .pushf x2 y2 z2 r2] s = .next t ∧
      let m0 := s.modeIn.headD s.mode
      let m1 := s.modeIn.tail.headD m0
      let m2 := s.modeIn.tail.tail.headD m1
      t.slot .data 12 = ⟨x0, y0, if m0.tdc = true then z0 else 0x3F800000, r0, 0b111, s.seq⟩ ∧
      t.slot .data 13 = ⟨x1, y1, if m1.tdc = true then z1 else 0x3F800000, r1, 0b111, s.seq + 1⟩ ∧
      t.slot .data 14 = ⟨x2, y2, if m2.tdc = true then z2 else 0x3F800000, r2, 0b111, s.seq + 2⟩ ∧
      t.slot .data 15 = t.slot .data 14 ∧ t.seq = s.seq + 3) ∧
    (∀ (is : List Instr) (s : State), (∀ i ∈ is, keepsFifoOrder i) → ∃ t, execAll is s = .next t ∧
      fifoEntries t = (fifoEntries s ++ pushesOf is s).drop (pushesOf is s).length) ∧
    ∀ (i : Instr) (s : State) (v : ShadowValue), pushOf i s = some v →
      ∃ t, exec i s = .next t ∧ t.slot .data 15 = v ∧ t.slot .data 14 = v

/-! ### Float numerics -/

/-- Rounding is to the nearest binary32, ties to even, with overflow to infinity at the midpoint past the largest finite
value and gradual underflow (R150, R151, R152; decision D1): no magnitude pattern below infinity is nearer to `m`, and
one that is equally near and different leaves the even pattern chosen. i2f rounds every integer so.
FloatOpsExactWhenRepresentable says that fadd, fsub and fmul do. `m` is in units of 2^-298, `fmag` in units of 2^-149. -/
def Obligations.RoundingIsNearestEven : Prop :=
  (∀ m p : Nat, roundMag m < infMag → p < infMag →
      let err := fun q : Nat => ((fmag (BitVec.ofNat 32 q) : Int) * 2 ^ 149 - (m : Int)).natAbs
      err (roundMag m) ≤ err p ∧ (err p = err (roundMag m) → p ≠ roundMag m → roundMag m % 2 = 0)) ∧
    (∀ m : Nat, roundMag m = infMag ↔ (2 ^ 25 - 1) * 2 ^ 401 ≤ m) ∧
    ∀ n : Int, i2f n = packF (decide (n < 0)) (roundMag (n.natAbs * 2 ^ 298))

/-- fadd, fsub and fmul round the exact result once (R151; decision D1): for finite operands a nonzero exact sum or
difference, and every exact product, gives the pattern of its rounded magnitude (RoundingIsNearestEven) and its sign;
and a result whose exact value is a binary32 value has that value ("exact when the exact result is representable").
Zero sums are in InfinitiesAndSignedZeros. -/
def Obligations.FloatOpsExactWhenRepresentable : Prop :=
  (∀ a b c : Word, isFinite a = true → isFinite b = true → isFinite c = true →
    (fval a + fval b = fval c → fval (fadd a b) = fval c ∧ isFinite (fadd a b) = true) ∧
      (fval a - fval b = fval c → fval (fsub a b) = fval c ∧ isFinite (fsub a b) = true) ∧
      (fval a * fval b = fval c * 2 ^ 149 → fval (fmul a b) = fval c ∧ isFinite (fmul a b) = true)) ∧
    ∀ a b : Word, isFinite a = true → isFinite b = true →
      (fval a + fval b ≠ 0 →
        fadd a b = packF (decide (fval a + fval b < 0)) (roundMag ((fval a + fval b).natAbs * 2 ^ 149))) ∧
      (fval a - fval b ≠ 0 →
        fsub a b = packF (decide (fval a - fval b < 0)) (roundMag ((fval a - fval b).natAbs * 2 ^ 149))) ∧
      fmul a b = packF (fsign a ^^ fsign b) (roundMag (fval a * fval b).natAbs)

/-- A NaN result arises exactly from a NaN operand, from infinity minus infinity and from zero times infinity, and is the
canonical NaN (R151; decision D1); a comparison with a NaN is false (R153). -/
def Obligations.NanResultsAreCanonical : Prop :=
  ∀ a b : Word,
    (isNaN a = true ∨ isNaN b = true →
      fadd a b = 0x7FC00000 ∧ fsub a b = 0x7FC00000 ∧ fmul a b = 0x7FC00000 ∧ flt a b = false) ∧
      (isNaN (fadd a b) = true → fadd a b = 0x7FC00000) ∧
      (isNaN (fsub a b) = true → fsub a b = 0x7FC00000) ∧
      (isNaN (fmul a b) = true → fmul a b = 0x7FC00000) ∧
      (isNaN (fadd a b) = true ↔ isNaN a = true ∨ isNaN b = true ∨
        (isInf a = true ∧ isInf b = true ∧ fsign a ≠ fsign b)) ∧
      (isNaN (fsub a b) = true ↔ isNaN a = true ∨ isNaN b = true ∨
        (isInf a = true ∧ isInf b = true ∧ fsign a = fsign b)) ∧
      (isNaN (fmul a b) = true ↔ isNaN a = true ∨ isNaN b = true ∨
        (isInf a = true ∧ isZero b = true) ∨ (isZero a = true ∧ isInf b = true))

/-- i2f is exact for |n| <= 2^24 (R152; decision D1). -/
def Obligations.SmallIntegersConvertExactly : Prop :=
  ∀ n : Int, n.natAbs ≤ 2 ^ 24 → fval (i2f n) = n * 2 ^ 149 ∧ isFinite (i2f n) = true

/-! ### The near-clip evaluator -/

/-- NCLIPV validates the three FIFO slots, all of them, and answers 1 exactly when all three are XY-valid afterwards
(R156; decision D24). D[15] and every other slot stay. -/
def Obligations.NclipvValidatesAllThree : Prop :=
  ∀ (raw0 raw1 raw2 : Word) (s : State),
    EncodedAs (.nclipv raw0 raw1 raw2) 0x0D000000 4 ∧
    ∃ t, exec (.nclipv raw0 raw1 raw2) s = .next t ∧
      t.slot .data 12 = validate (s.slot .data 12) raw0 ∧
      t.slot .data 13 = validate (s.slot .data 13) raw1 ∧
      t.slot .data 14 = validate (s.slot .data 14) raw2 ∧
      (∀ j : RegIdx, j.val < 12 ∨ 14 < j.val → t.slot .data j = s.slot .data j) ∧ SameFile .ctrl s t ∧
      t.seq = s.seq ∧
      t.out = s.out ++ [.resWord (if xyv (t.slot .data 12).flags = true ∧ xyv (t.slot .data 13).flags = true ∧
        xyv (t.slot .data 14).flags = true then 0x00000001 else 0x00000000)] ∧
      SameInputs s t

/-- NCLIP's result by the formula, the order of evaluation and the open interval of R157 and R158, from x and y of the
three slots whatever their flags; no state changes (decision D23). -/
def Obligations.NclipEvaluatesSignedArea : Prop :=
  EncodedAs .nclip 0x0E000000 1 ∧
  ∀ s : State,
    let x0 := (s.slot .data 12).x
    let y0 := (s.slot .data 12).y
    let x1 := (s.slot .data 13).x
    let y1 := (s.slot .data 13).y
    let x2 := (s.slot .data 14).x
    let y2 := (s.slot .data 14).y
    let a := fsub (fadd (fadd (fmul x0 y1) (fmul x1 y2)) (fmul x2 y0))
      (fadd (fadd (fmul x0 y2) (fmul x1 y0)) (fmul x2 y1))
    let m := fabs a
    let r := if flt 0x3DCCCCCD m = true ∧ flt m 0x3F800000 = true then
        (if flt a 0x00000000 = true then fadd a 0xBF800000 else fadd a 0x3F800000) else a
    ∃ t, exec .nclip s = .next t ∧ t.out = s.out ++ [.resWord r] ∧ SameFile .data s t ∧ SameFile .ctrl s t ∧
      t.seq = s.seq ∧ SameInputs s t

/-- No corrected or uncorrected result has magnitude strictly between the lower constant and 1.0, and the correction
keeps the sign (R159 (c), (h); decision D23). -/
def Obligations.NclipNeverInsideOpenInterval : Prop :=
  ∀ a : Word,
    ¬ (flt 0x3DCCCCCD (fabs (nclipCorrect a)) = true ∧ flt (fabs (nclipCorrect a)) 0x3F800000 = true) ∧
      (isNaN a = false → fsign (nclipCorrect a) = fsign a)

/-- On three degraded slots with coordinates of the screen's range, NCLIP's result is exactly the integer area (R160,
R193: derived in the spec): the fall back to the original fixed-point behaviour. The range -1024 to 1023 keeps every
intermediate sum below 2^24, so nothing is rounded. -/
def Obligations.NclipOnDegradedIsIntegerArea : Prop :=
  ∀ (w0 w1 w2 : Word) (s : State),
    s.slot .data 12 = degrade w0 → s.slot .data 13 = degrade w1 → s.slot .data 14 = degrade w2 →
    (∀ w ∈ [w0, w1, w2], (-1024 ≤ (w.extractLsb' 0 16).toInt ∧ (w.extractLsb' 0 16).toInt ≤ 1023) ∧
      (-1024 ≤ (w.extractLsb' 16 16).toInt ∧ (w.extractLsb' 16 16).toInt ≤ 1023)) →
    let x := fun w : Word => (w.extractLsb' 0 16).toInt
    let y := fun w : Word => (w.extractLsb' 16 16).toInt
    ∃ t r, exec .nclip s = .next t ∧ t.out = s.out ++ [.resWord r] ∧ isFinite r = true ∧
      fval r = ((x w0 * y w1 + x w1 * y w2 + x w2 * y w0) - (x w0 * y w2 + x w1 * y w0 + x w2 * y w1)) * 2 ^ 149

/-! ### The transfer commands -/

/-- RDATA validates the source slot and sends its copy with raw forced; from index 15 it first takes D[14] when
HEAD_REDERIVE_ON_READ holds; stated for both values of the parameter (R172 with R171; decision D12). -/
def Obligations.RdataValidatesAndCopiesOut : Prop :=
  ∀ (dsrc hdst : RegIdx) (rtVal rdVal : Word) (s : State),
    EncodedAs (.rdata dsrc hdst rtVal rdVal) (headerNumber 0x05 dsrc.val hdst.val 0) 3 ∧
    let read := if dsrc = 15 ∧ Config.headRederiveOnRead = true then s.slot .data 14 else s.slot .data dsrc
    let v := if read.raw = rdVal then read else degrade rdVal
    ∃ t, exec (.rdata dsrc hdst rtVal rdVal) s = .next t ∧ OnlySlot .data dsrc v s t ∧ t.seq = s.seq ∧
      t.out = s.out ++ [.host hdst { v with raw := rtVal }] ∧ SameInputs s t

/-- WDATA validates the payload, sends it to the host slot always, and applies the register-write rule to it (R173 with
R131). -/
def Obligations.WdataValidatesAndWrites : Prop :=
  ∀ (hsrc ddst : RegIdx) (rdVal rtVal : Word) (src : ShadowValue) (s : State),
    EncodedAs (.wdata hsrc ddst rdVal rtVal src) (headerNumber 0x06 hsrc.val ddst.val 0) 9 ∧
    let v := if src.raw = rtVal then src else degrade rtVal
    ∃ t, exec (.wdata hsrc ddst rdVal rtVal src) s = .next t ∧ RegWritten ddst v rdVal s t ∧ t.seq = s.seq ∧
      t.out = s.out ++ [.host hsrc v] ∧ SameInputs s t

/-- RCTRL is the read pattern on the control file, with no special index (R174). -/
def Obligations.RctrlValidatesAndCopiesOut : Prop :=
  ∀ (csrc hdst : RegIdx) (rtVal rdVal : Word) (s : State),
    EncodedAs (.rctrl csrc hdst rtVal rdVal) (headerNumber 0x07 csrc.val hdst.val 0) 3 ∧
    let v := if (s.slot .ctrl csrc).raw = rdVal then s.slot .ctrl csrc else degrade rdVal
    ∃ t, exec (.rctrl csrc hdst rtVal rdVal) s = .next t ∧ OnlySlot .ctrl csrc v s t ∧ t.seq = s.seq ∧
      t.out = s.out ++ [.host hdst { v with raw := rtVal }] ∧ SameInputs s t

/-- WCTRL stores the validated payload with raw forced, at every control index, 15 and 31 like any other (R175; decision
D10). -/
def Obligations.WctrlValidatesAndStores : Prop :=
  ∀ (hsrc cdst : RegIdx) (rdVal rtVal : Word) (src : ShadowValue) (s : State),
    EncodedAs (.wctrl hsrc cdst rdVal rtVal src) (headerNumber 0x08 hsrc.val cdst.val 0) 9 ∧
    let v := if src.raw = rtVal then src else degrade rtVal
    ∃ t, exec (.wctrl hsrc cdst rdVal rtVal src) s = .next t ∧ OnlySlot .ctrl cdst { v with raw := rdVal } s t ∧
      t.seq = s.seq ∧ t.out = s.out ++ [.host hsrc v] ∧ SameInputs s t

/-- LDMEM with an answer at hand sends its request and applies the register-write rule to the answer, whatever the
answer is (R176, R54; decision D11). -/
def Obligations.LdmemAnsweredWritesResponse : Prop :=
  ∀ (ddst : RegIdx) (address rawWord : Word) (a : SvWire) (rest : List SvWire) (s : State), s.vcmIn = a :: rest →
    EncodedAs (.ldmem ddst address rawWord) (headerNumber 0x09 0 ddst.val 0) 3 ∧
    ∃ t, exec (.ldmem ddst address rawWord) s = .next t ∧ RegWritten ddst (svOfWire a) rawWord s t ∧
      t.seq = s.seq ∧ t.out = s.out ++ [.mVcm address rawWord] ∧ t.vcmIn = rest ∧ t.cmd = s.cmd ∧
      t.vcmPending = s.vcmPending ∧ t.mode = s.mode ∧ t.modeIn = s.modeIn ∧ t.resetIn = s.resetIn

/-- LDMEM without an answer has sent its request and waits: no slot changes, and every step leaves the waiting block as
it is while no answer comes, whatever stands on CMD (R55; that waiting is a next state is log entry 2). -/
def Obligations.LdmemUnansweredWaits : Prop :=
  ∀ (ddst : RegIdx) (address rawWord : Word) (s : State), s.vcmIn = [] → s.resetIn = false →
    ∃ t, exec (.ldmem ddst address rawWord) s = .next t ∧ SameFile .data s t ∧ SameFile .ctrl s t ∧
      t.seq = s.seq ∧ t.out = s.out ++ [.mVcm address rawWord] ∧ t.vcmPending = some ⟨ddst, address, rawWord⟩ ∧
      t.cmd = s.cmd ∧ t.mode = s.mode ∧ t.modeIn = s.modeIn ∧
      ∀ ws : List Word, step { t with cmd := ws } = .next { t with cmd := ws }

/-- When the answer comes late, the waiting LDMEM ends in the state an answer at hand would have given: the wait is not
visible in the result (R55, R66). -/
def Obligations.LdmemLateAnswerSameResult : Prop :=
  ∀ (ddst : RegIdx) (address rawWord : Word) (a : SvWire) (rest : List SvWire) (s t : State),
    s.vcmIn = [] → s.resetIn = false → s.vcmPending = none →
    exec (.ldmem ddst address rawWord) s = .next t →
    step { t with vcmIn := a :: rest } = exec (.ldmem ddst address rawWord) { s with vcmIn := a :: rest }

/-- STMEM validates the source slot and sends it to the memory collaborator, degraded or not (R177). -/
def Obligations.StmemValidatesAndPersists : Prop :=
  ∀ (dsrc : RegIdx) (address rawWord : Word) (s : State),
    EncodedAs (.stmem dsrc address rawWord) (headerNumber 0x0A dsrc.val 0 0) 3 ∧
    let v := if (s.slot .data dsrc).raw = rawWord then s.slot .data dsrc else degrade rawWord
    ∃ t, exec (.stmem dsrc address rawWord) s = .next t ∧ OnlySlot .data dsrc v s t ∧ t.seq = s.seq ∧
      t.out = s.out ++ [.mWr v address] ∧ SameInputs s t

/-- Round trip through register 15: a WDATA into 15 then an RDATA from 15, both with true raw values, sends src back
with raw replaced by the value RDATA was given; for both values of HEAD_REDERIVE_ON_READ (R179, derived in the
spec). -/
def Obligations.RoundTripThroughRegister15 : Prop :=
  ∀ (h g : RegIdx) (rd rt rt2 : Word) (src : ShadowValue) (s : State), src.raw = rt →
    ∃ t, execAll [.wdata h 15 rd rt src, .rdata 15 g rt2 rt] s = .next t ∧
      t.slot .data 15 = src ∧ t.slot .data 14 = src ∧
      t.out = s.out ++ [.host h src, .host g { src with raw := rt2 }]

/-! ### Whole-machine rules -/

/-- SEQ is incremented by PUSHF and PUSHX and by nothing else; INIT does not clear it (R31; decision D3). -/
def Obligations.OnlyPushesMoveSeq : Prop :=
  ∀ (i : Instr) (s t : State), exec i s = .next t → t.seq = if pushes i = true then s.seq + 1 else s.seq

/-- Every command emits the events of the command table: at most one, on its channel (R52, R53, R71, R84; decision
D28). Earlier events stay. -/
def Obligations.EventsPerCommand : Prop :=
  ∀ (i : Instr) (s t : State), exec i s = .next t →
    ∃ es, t.out = s.out ++ es ∧ es.map Event.channel = channelsOf i

/-- A command changes only the slots the tables of R28 and R30 name for it (both derived in the spec). -/
def Obligations.SlotsWrittenOnlyByTable : Prop :=
  ∀ (i : Instr) (s t : State) (f : FileSel) (j : RegIdx), exec i s = .next t → mayWrite i f j = false →
    t.slot f j = s.slot f j

/-- D and C share nothing: no command moves a value between them (R30). What a command leaves in D and in SEQ does not
depend on C, and what it leaves in C does not depend on D. -/
def Obligations.FilesDoNotInterfere : Prop :=
  ∀ (i : Instr) (s t : State) (file : Vector ShadowValue 32), exec i s = .next t →
    (∃ u, exec i { s with c := file } = .next u ∧ u.d = t.d ∧ u.seq = t.seq) ∧
      (∃ u, exec i { s with d := file } = .next u ∧ u.c = t.c ∧ u.seq = t.seq)

/-- The mode inputs matter to PUSHF and PUSHX only (R33; decision D27): under any other command any other levels give
the same next state, with those levels in it. -/
def Obligations.ModeMattersToPushesOnly : Prop :=
  ∀ (i : Instr) (s t : State) (m : Mode) (ms : List Mode), pushes i = false → exec i s = .next t →
    exec i { s with mode := m, modeIn := ms } = .next { t with mode := m, modeIn := ms }

/-- A slot's flags grow only by a whole-value write or a push, and by the head re-derive, which copies those of D[14]
(R35, R171; R35 is derived in the spec). -/
def Obligations.FlagsGrowOnlyByWholeWrites : Prop :=
  (∀ (i : Instr) (s t : State) (f : FileSel) (j : RegIdx), exec i s = .next t → installsFlags i = false →
      FlagsWithin (t.slot f j).flags (s.slot f j).flags) ∧
    ∀ (h : RegIdx) (rt rd : Word) (s t : State), exec (.rdata 15 h rt rd) s = .next t →
      (∀ f j, (f, j) ≠ (FileSel.data, (15 : RegIdx)) → t.slot f j = s.slot f j) ∧
      (FlagsWithin (t.slot .data 15).flags (s.slot .data 15).flags ∨
        FlagsWithin (t.slot .data 15).flags (s.slot .data 14).flags)

/-! ### The memory collaborator and the reference environment -/

/-- The reference environment of R72 keeps the contract of R54, and an answer after a store sees the store (R66). -/
def Obligations.ReferenceEnvironmentKeepsContract : Prop :=
  (∀ (e : RefEnv) (a w : Word), VcmContract (msRead e.ms a.toNat) w (e.answer a w)) ∧
    (∀ (e : RefEnv) (v : ShadowValue) (a : Word), (e.observe (.mWr v a)).answer a v.raw = v) ∧
    (∀ (e : RefEnv) (v : ShadowValue) (a b w : Word), a ≠ b →
      (e.observe (.mWr v a)).answer b w = e.answer b w)

/-- A store then a load of the same word from the same address, in the reference environment, recovers the validated
shadow value whole: in the destination slot, in D[14] and D[15] by a push at index 15, nowhere at index 31 (R56, R72,
R176, R177, R131). The environment acts on the event that the store itself sent. -/
def Obligations.StoreThenLoadRecoversShadow : Prop :=
  ∀ (dsrc ddst : RegIdx) (a w : Word) (e : RefEnv) (rest : List SvWire) (s t : State),
    exec (.stmem dsrc a w) s = .next t →
    ∃ ev, t.out = s.out ++ [ev] ∧
    ∃ u, exec (.ldmem ddst a w) { t with vcmIn := svToWire ((e.observe ev).answer a w) :: rest } = .next u ∧
      (ddst = 15 → Shifted (t.slot .data dsrc) t u) ∧
      (ddst = 31 → SameFile .data t u ∧ SameFile .ctrl t u) ∧
      (ddst ≠ 15 → ddst ≠ 31 → OnlySlot .data ddst (t.slot .data dsrc) t u)

/-- The host slots of the reference environment follow the transfers (R51, R72; decisions D9, D26): WDATA and WCTRL carry
HS[hsrc], and the event each of the four transfers sends leaves in the host slot it names, and in no other, the value the
rule of the transfer gives (R172 to R175). -/
def Obligations.HostSlotsFollowTransfers : Prop :=
  ∀ (e : RefEnv) (h r : RegIdx) (rd rt : Word) (s : State),
    let sent := e.hs[h]
    let v := if sent.raw = rt then sent else degrade rt
    (∃ t ev, exec (e.sendWdata h r rd rt) s = .next t ∧ t.out = s.out ++ [ev] ∧ RegWritten r v rd s t ∧
        OnlyHostSlot h v e (e.observe ev)) ∧
      (∃ t ev, exec (e.sendWctrl h r rd rt) s = .next t ∧ t.out = s.out ++ [ev] ∧
        OnlySlot .ctrl r { v with raw := rd } s t ∧ OnlyHostSlot h v e (e.observe ev)) ∧
      (∃ t ev, exec (.rdata r h rt rd) s = .next t ∧ t.out = s.out ++ [ev] ∧
        OnlyHostSlot h { t.slot .data r with raw := rt } e (e.observe ev)) ∧
      (∃ t ev, exec (.rctrl r h rt rd) s = .next t ∧ t.out = s.out ++ [ev] ∧
        OnlyHostSlot h { t.slot .ctrl r with raw := rt } e (e.observe ev))

/-- The block and the reference environment run together (R54, R55, R72; decision D26): an LDMEM at the head of the
stream sends its request in one step and ends in the next with the environment's answer written by the register-write
rule; the environment is as before. That the answer is taken in a step of its own is log entries 4 and 11. -/
def Obligations.ReferenceEnvironmentAnswersLdmem : Prop :=
  ∀ (e : RefEnv) (s : State) (ddst : RegIdx) (a w : Word) (rest : List Word),
    s.resetIn = false → s.vcmPending = none → s.vcmIn = [] → s.cmd = encode (.ldmem ddst a w) ++ rest →
    ∃ b t, Bench.step ⟨e, s⟩ = .next b ∧ Bench.step b = .next ⟨e, t⟩ ∧ RegWritten ddst (e.answer a w) w s t ∧
      t.cmd = rest ∧ t.vcmPending = none ∧ t.vcmIn = [] ∧ t.out = s.out ++ [.mVcm a w] ∧ t.seq = s.seq ∧
      t.mode = s.mode ∧ t.modeIn = s.modeIn ∧ t.resetIn = s.resetIn

/-! ### Float numerics: special values -/

/-- Infinities, overflow and signed zeros (R151; decision D1): an infinite operand gives an infinity of the right sign
where the result is no NaN; an exact result at or past the rounding midpoint overflows to the infinity of its sign; an
exact zero sum is -0 only when both terms are negative, so fsub(a, a) = +0.0 and fadd(+0, -0) = +0; a product has the
exclusive-or of the signs. The midpoint is (2^25 - 1) * 2^103, in units of 2^-149 and 2^-298. -/
def Obligations.InfinitiesAndSignedZeros : Prop :=
  ∀ a b : Word,
    (isInf a = true → isFinite b = true → fadd a b = a ∧ fsub a b = a) ∧
      (isFinite a = true → isInf b = true → fadd a b = b ∧ fsub a b = infinityOf (!fsign b)) ∧
      (isInf a = true → isInf b = true →
        (fsign a = fsign b → fadd a b = a) ∧ (fsign a ≠ fsign b → fsub a b = a)) ∧
      (isInf a = true → isNaN b = false → isZero b = false →
        fmul a b = infinityOf (fsign a ^^ fsign b) ∧ fmul b a = infinityOf (fsign a ^^ fsign b)) ∧
      (isFinite a = true → isFinite b = true →
        ((2 ^ 25 - 1) * 2 ^ 252 ≤ (fval a + fval b).natAbs → fadd a b = infinityOf (decide (fval a + fval b < 0))) ∧
        ((2 ^ 25 - 1) * 2 ^ 252 ≤ (fval a - fval b).natAbs → fsub a b = infinityOf (decide (fval a - fval b < 0))) ∧
        ((2 ^ 25 - 1) * 2 ^ 401 ≤ (fval a * fval b).natAbs → fmul a b = infinityOf (fsign a ^^ fsign b)) ∧
        (fval a + fval b = 0 → fadd a b = zeroOf (fsign a && fsign b)) ∧
        (fval a - fval b = 0 → fsub a b = zeroOf (fsign a && !fsign b)) ∧
        fsub a a = 0x00000000) ∧
      (isNaN (fmul a b) = false → fsign (fmul a b) = (fsign a ^^ fsign b))

/-- flt and fabs (R153; decision D1): flt compares the values of two finite operands, minus infinity is below and plus
infinity above everything else, nothing is below itself; fabs clears bit 31 of every pattern and keeps the others. NaN
operands of flt are in NanResultsAreCanonical. -/
def Obligations.ComparisonAndAbsoluteValue : Prop :=
  ∀ a b : Word,
    (isFinite a = true → isFinite b = true → flt a b = decide (fval a < fval b)) ∧
      (isInf a = true → isFinite b = true → flt a b = fsign a) ∧
      (isFinite a = true → isInf b = true → flt a b = !fsign b) ∧
      (isInf a = true → isInf b = true → flt a b = (fsign a && !fsign b)) ∧
      fsign (fabs a) = false ∧ (∀ k < 31, (fabs a).getLsbD k = a.getLsbD k) ∧
      (isFinite a = true → fval (fabs a) = |fval a|)
end

