-- ==== Sys2Proof/Laws/Binary32.lean ====
section
/-! SUPPORT. The fields of a packed pattern, exact rounding (a magnitude that is a binary32 value rounds to its own
pattern), and the special values. -/

namespace Sys2Proof.Machine

theorem packF_toNat (n : Bool) {p : Nat} (hp : p < 2 ^ 31) : (packF n p).toNat = n.toNat * 2 ^ 31 + p := by
  have h : (packF n p).toNat = (BitVec.ofBool n).toNat <<< 31 ||| (BitVec.ofNat 31 p).toNat :=
    BitVec.toNat_append ..
  rw [h, BitVec.toNat_ofNat, Nat.mod_eq_of_lt hp, Nat.shiftLeft_eq, Nat.mul_comm,
    ← Nat.two_pow_add_eq_or_of_lt hp, BitVec.toNat_ofBool, Nat.mul_comm]

theorem fexp_eq (a : Word) : fexp a = a.toNat / 2 ^ 23 % 2 ^ 8 := by
  simp [fexp, BitVec.extractLsb'_toNat, Nat.shiftRight_eq_div_pow]

theorem ffrac_eq (a : Word) : ffrac a = a.toNat % 2 ^ 23 := by
  simp [ffrac, BitVec.extractLsb'_toNat]

theorem fsign_eq (a : Word) : fsign a = decide (2 ^ 31 ≤ a.toNat) := by
  rw [fsign, show a.getLsbD 31 = a.msb from (BitVec.msb_eq_getLsbD_last a).symm, BitVec.msb_eq_decide]

@[simp] theorem fsign_packF (n : Bool) {p : Nat} (hp : p < 2 ^ 31) : fsign (packF n p) = n := by
  rw [fsign_eq, packF_toNat n hp]
  cases n <;> simp <;> omega

theorem fexp_packF (n : Bool) {p : Nat} (hp : p < 2 ^ 31) : fexp (packF n p) = p / 2 ^ 23 := by
  rw [fexp_eq, packF_toNat n hp]
  cases n <;> simp <;> omega

theorem ffrac_packF (n : Bool) {p : Nat} (hp : p < 2 ^ 31) : ffrac (packF n p) = p % 2 ^ 23 := by
  rw [ffrac_eq, packF_toNat n hp]
  cases n <;> simp <;> omega

/-- The magnitude of the pattern that `roundMag` forms from binade `k` and significand `q`. -/
theorem fmag_packF_binade (n : Bool) (k q : Nat) (hq : q < 2 ^ 24) (hk : k = 0 ∨ 2 ^ 23 ≤ q)
    (hp : k * 2 ^ 23 + q < infMag) : fmag (packF n (k * 2 ^ 23 + q)) = q * 2 ^ k := by
  have hp' : k * 2 ^ 23 + q < 2 ^ 31 := by unfold infMag at hp; omega
  rw [fmag, fexp_packF n hp', ffrac_packF n hp']
  by_cases hlow : q < 2 ^ 23
  · obtain rfl : k = 0 := by omega
    have h0 : (0 * 2 ^ 23 + q) / 2 ^ 23 = 0 := by omega
    have h1 : (0 * 2 ^ 23 + q) % 2 ^ 23 = q := by omega
    rw [if_pos h0, h1]; simp
  · have h0 : (k * 2 ^ 23 + q) / 2 ^ 23 = k + 1 := by omega
    have h1 : (k * 2 ^ 23 + q) % 2 ^ 23 = q - 2 ^ 23 := by omega
    rw [if_neg (by omega), h0, h1, Nat.add_sub_cancel, show 2 ^ 23 + (q - 2 ^ 23) = q by omega]

theorem log2_mul_two_pow {q : Nat} (hq : q ≠ 0) (e : Nat) : (q * 2 ^ e).log2 = q.log2 + e := by
  have hpos : 0 < 2 ^ e := Nat.two_pow_pos e
  obtain ⟨h1, h2⟩ := (Nat.log2_eq_iff hq).1 rfl
  rw [Nat.log2_eq_iff (by positivity)]
  constructor
  · rw [pow_add]; exact Nat.mul_le_mul_right _ h1
  · rw [show q.log2 + e + 1 = (q.log2 + 1) + e by omega, pow_add]
    exact Nat.mul_lt_mul_of_pos_right h2 hpos

/-- A magnitude with a significand of at most 24 bits on the grid of its binade is not rounded. -/
theorem roundMag_exact (k q : Nat) (hq : q < 2 ^ 24) (hk : k = 0 ∨ 2 ^ 23 ≤ q)
    (hp : k * 2 ^ 23 + q < infMag) : roundMag (q * 2 ^ (149 + k)) = k * 2 ^ 23 + q := by
  have hshift : max ((q * 2 ^ (149 + k)).log2 - 23) 149 = 149 + k := by
    rcases Nat.eq_zero_or_pos q with rfl | hpos
    · simp at hk; subst hk; simp
    · have hl : (q * 2 ^ (149 + k)).log2 = q.log2 + (149 + k) := log2_mul_two_pow (by omega) _
      have h24 : q.log2 < 24 := (Nat.log2_lt (by omega)).2 hq
      rcases hk with rfl | hk
      · omega
      · have : 23 ≤ q.log2 := (Nat.le_log2 (by omega)).2 hk
        omega
  have hpos : 0 < 2 ^ (149 + k) := Nat.two_pow_pos _
  have hhalf : 0 < 2 ^ (149 + k - 1) := Nat.two_pow_pos _
  simp only [roundMag, hshift, Nat.mul_mod_left, Nat.mul_div_cancel _ hpos]
  have hup : (decide (2 ^ (149 + k - 1) < 0) || decide (0 = 2 ^ (149 + k - 1)) && decide (q % 2 = 1)) = false := by
    rw [decide_eq_false (by omega), decide_eq_false (by omega)]; rfl
  rw [hup]
  simp only [Bool.false_eq_true, if_false]
  omega

/-- The magnitude pattern of a finite value is binade `k` and significand `q` (R150). -/
theorem finite_binade (c : Word) (hc : isFinite c = true) :
    ∃ k q, q < 2 ^ 24 ∧ (k = 0 ∨ 2 ^ 23 ≤ q) ∧ k * 2 ^ 23 + q < infMag ∧ fmag c = q * 2 ^ k ∧
      c.toNat % 2 ^ 31 = k * 2 ^ 23 + q := by
  simp only [isFinite, decide_eq_true_eq] at hc
  rw [fexp_eq] at hc
  have hlt := c.isLt
  unfold fmag infMag
  rw [fexp_eq, ffrac_eq]
  generalize c.toNat = n at *
  by_cases h : n / 2^23 % 2^8 = 0
  · refine ⟨0, n % 2^23, by omega, by omega, by omega, by rw [if_pos h]; simp, by omega⟩
  · refine ⟨n/2^23 % 2^8 - 1, 2^23 + n % 2^23, by omega, by omega, by omega, by rw [if_neg h], by omega⟩

/-- The magnitude of a finite pattern is not rounded. -/
theorem roundMag_fmag (c : Word) (hc : isFinite c = true) :
    ∃ p, p < infMag ∧ roundMag (fmag c * 2 ^ 149) = p ∧ ∀ n, fmag (packF n p) = fmag c := by
  obtain ⟨k, q, h1, h2, h3, h4, h5⟩ := finite_binade c hc
  refine ⟨k*2^23+q, h3, ?_, ?_⟩
  · rw [h4, mul_assoc, ← pow_add, Nat.add_comm k 149]; exact roundMag_exact k q h1 h2 h3
  · intro n; rw [fmag_packF_binade n k q h1 h2 h3, h4]

theorem finite_packF (n : Bool) {p : Nat} (hp : p < infMag) : isFinite (packF n p) = true := by
  have : p < 2^31 := by unfold infMag at hp; omega
  rw [isFinite, fexp_packF n this]; unfold infMag at hp; simp; omega

theorem fval_packF (n : Bool) {p : Nat} (hp : p < infMag) :
    fval (packF n p) = if n then -(fmag (packF n p) : Int) else fmag (packF n p) := by
  have : p < 2^31 := by unfold infMag at hp; omega
  rw [fval, fsign_packF n this]

@[simp] theorem fval_natAbs (a : Word) : (fval a).natAbs = fmag a := by unfold fval; split <;> simp

theorem isNaN_isInf_of_finite (a : Word) (h : isFinite a = true) : isNaN a = false ∧ isInf a = false := by
  simp only [isFinite, decide_eq_true_eq] at h
  have : fexp a ≠ 255 := by omega
  simp [isNaN, isInf, this]

/-- `fneg` inverts the sign and keeps the magnitude. -/
theorem fneg_fields (b : Word) : fexp (fneg b) = fexp b ∧ ffrac (fneg b) = ffrac b ∧ fsign (fneg b) = !fsign b := by
  refine ⟨?_, ?_, ?_⟩
  · simp only [fexp, fneg]; congr 1; ext i hi; simp [BitVec.getLsbD_xor]
    interval_cases i <;> simp
  · simp only [ffrac, fneg]; congr 1; ext i hi; simp [BitVec.getLsbD_xor]
    interval_cases i <;> simp
  · simp [fsign, fneg]

theorem fneg_val (b : Word) : fval (fneg b) = - fval b ∧ isFinite (fneg b) = isFinite b := by
  obtain ⟨h1, h2, h3⟩ := fneg_fields b
  have hm : fmag (fneg b) = fmag b := by simp [fmag, h1, h2]
  constructor
  · simp only [fval, hm, h3]; cases fsign b <;> simp
  · simp [isFinite, h1]

/-! ### Special values -/

/-- The infinity of a sign as a packed pattern (R150). -/
theorem packF_infMag (n : Bool) : packF n infMag = infinityOf n := by cases n <;> decide

/-- The zero of a sign as a packed pattern (R150). -/
theorem packF_zero (n : Bool) : packF n 0 = zeroOf n := by cases n <;> decide

theorem roundMag_le (m : Nat) : roundMag m ≤ infMag := by
  simp only [roundMag]
  exact Nat.min_le_right _ _

/-- Every pattern is a NaN, an infinity or finite, and only one of them (R150). -/
theorem nan_or_inf_or_finite (a : Word) :
    (isNaN a = true ∧ isInf a = false ∧ isFinite a = false) ∨
      (isNaN a = false ∧ isInf a = true ∧ isFinite a = false) ∨
      (isNaN a = false ∧ isInf a = false ∧ isFinite a = true) := by
  have hlt : fexp a < 256 := (a.extractLsb' 23 8).isLt
  by_cases h : fexp a = 255
  · by_cases h2 : ffrac a = 0 <;> simp [isNaN, isInf, isFinite, h, h2]
  · right; right
    simp [isNaN, isInf, isFinite, h]
    omega

theorem isNaN_packF (n : Bool) {p : Nat} (hp : p ≤ infMag) : isNaN (packF n p) = false := by
  have hp' : p < 2 ^ 31 := by unfold infMag at hp; omega
  simp only [isNaN, fexp_packF n hp', ffrac_packF n hp', Bool.and_eq_false_imp]
  unfold infMag at hp
  intro h
  simp at h
  simp
  omega

/-- An infinity is one of two patterns (R150). -/
theorem eq_infinityOf (a : Word) (h : isInf a = true) : a = infinityOf (fsign a) := by
  apply BitVec.eq_of_toNat_eq
  simp only [isInf, fexp_eq, ffrac_eq, Bool.and_eq_true, beq_iff_eq] at h
  rw [fsign_eq]
  have hlt := a.isLt
  by_cases hs : 2 ^ 31 ≤ a.toNat
  · rw [decide_eq_true hs]; simp [infinityOf]; omega
  · rw [decide_eq_false hs]; simp [infinityOf]; omega

theorem isZero_eq (a : Word) : isZero a = decide (fmag a = 0) := by
  rw [Bool.eq_iff_iff, decide_eq_true_iff]
  simp only [isZero, fmag, fexp_eq, ffrac_eq, Bool.or_eq_true, beq_iff_eq, ← BitVec.toNat_inj]
  have hlt := a.isLt
  by_cases hs : a.toNat / 2 ^ 23 % 2 ^ 8 = 0
  · rw [if_pos hs]; simp; omega
  · rw [if_neg hs]
    have hpos : 0 < (2 ^ 23 + a.toNat % 2 ^ 23) * 2 ^ (a.toNat / 2 ^ 23 % 2 ^ 8 - 1) := by positivity
    simp; omega

theorem isNaN_isInf_fneg (b : Word) : isNaN (fneg b) = isNaN b ∧ isInf (fneg b) = isInf b := by
  simp [isNaN, isInf, fneg_fields]

end Sys2Proof.Machine
end

