-- ==== Sys2Proof/Laws/State.lean ====
section
/-! SUPPORT. One lemma per field per update of State, each true by unfolding the record update. -/

namespace Sys2Proof.Machine

@[simp] theorem writeSlot_data_d (s : State) (i : RegIdx) (v : ShadowValue) : (s.writeSlot .data i v).d = s.d.set i v := rfl
@[simp] theorem writeSlot_data_c (s : State) (i : RegIdx) (v : ShadowValue) : (s.writeSlot .data i v).c = s.c := rfl
@[simp] theorem writeSlot_ctrl_d (s : State) (i : RegIdx) (v : ShadowValue) : (s.writeSlot .ctrl i v).d = s.d := rfl
@[simp] theorem writeSlot_ctrl_c (s : State) (i : RegIdx) (v : ShadowValue) : (s.writeSlot .ctrl i v).c = s.c.set i v := rfl
@[simp] theorem writeSlot_seq (s : State) (f : FileSel) (i : RegIdx) (v : ShadowValue) :
    (s.writeSlot f i v).seq = s.seq := rfl
@[simp] theorem writeSlot_cmd (s : State) (f : FileSel) (i : RegIdx) (v : ShadowValue) :
    (s.writeSlot f i v).cmd = s.cmd := rfl
@[simp] theorem writeSlot_vcmPending (s : State) (f : FileSel) (i : RegIdx) (v : ShadowValue) :
    (s.writeSlot f i v).vcmPending = s.vcmPending := rfl
@[simp] theorem writeSlot_out (s : State) (f : FileSel) (i : RegIdx) (v : ShadowValue) :
    (s.writeSlot f i v).out = s.out := rfl
@[simp] theorem writeSlot_mode (s : State) (f : FileSel) (i : RegIdx) (v : ShadowValue) :
    (s.writeSlot f i v).mode = s.mode := rfl
@[simp] theorem writeSlot_modeIn (s : State) (f : FileSel) (i : RegIdx) (v : ShadowValue) :
    (s.writeSlot f i v).modeIn = s.modeIn := rfl
@[simp] theorem writeSlot_vcmIn (s : State) (f : FileSel) (i : RegIdx) (v : ShadowValue) :
    (s.writeSlot f i v).vcmIn = s.vcmIn := rfl
@[simp] theorem writeSlot_resetIn (s : State) (f : FileSel) (i : RegIdx) (v : ShadowValue) :
    (s.writeSlot f i v).resetIn = s.resetIn := rfl

@[simp] theorem zeroFiles_d (s : State) :
    s.zeroFiles.d = Vector.replicate 32 ShadowValue.zero := rfl
@[simp] theorem zeroFiles_c (s : State) :
    s.zeroFiles.c = Vector.replicate 32 ShadowValue.zero := rfl
@[simp] theorem zeroFiles_seq (s : State) :
    s.zeroFiles.seq = s.seq := rfl
@[simp] theorem zeroFiles_cmd (s : State) :
    s.zeroFiles.cmd = s.cmd := rfl
@[simp] theorem zeroFiles_vcmPending (s : State) :
    s.zeroFiles.vcmPending = s.vcmPending := rfl
@[simp] theorem zeroFiles_out (s : State) :
    s.zeroFiles.out = s.out := rfl
@[simp] theorem zeroFiles_mode (s : State) :
    s.zeroFiles.mode = s.mode := rfl
@[simp] theorem zeroFiles_modeIn (s : State) :
    s.zeroFiles.modeIn = s.modeIn := rfl
@[simp] theorem zeroFiles_vcmIn (s : State) :
    s.zeroFiles.vcmIn = s.vcmIn := rfl
@[simp] theorem zeroFiles_resetIn (s : State) :
    s.zeroFiles.resetIn = s.resetIn := rfl

@[simp] theorem emit_d (s : State) (e : Event) :
    (s.emit e).d = s.d := rfl
@[simp] theorem emit_c (s : State) (e : Event) :
    (s.emit e).c = s.c := rfl
@[simp] theorem emit_seq (s : State) (e : Event) :
    (s.emit e).seq = s.seq := rfl
@[simp] theorem emit_cmd (s : State) (e : Event) :
    (s.emit e).cmd = s.cmd := rfl
@[simp] theorem emit_vcmPending (s : State) (e : Event) :
    (s.emit e).vcmPending = s.vcmPending := rfl
@[simp] theorem emit_out (s : State) (e : Event) :
    (s.emit e).out = s.out ++ [e] := rfl
@[simp] theorem emit_mode (s : State) (e : Event) :
    (s.emit e).mode = s.mode := rfl
@[simp] theorem emit_modeIn (s : State) (e : Event) :
    (s.emit e).modeIn = s.modeIn := rfl
@[simp] theorem emit_vcmIn (s : State) (e : Event) :
    (s.emit e).vcmIn = s.vcmIn := rfl
@[simp] theorem emit_resetIn (s : State) (e : Event) :
    (s.emit e).resetIn = s.resetIn := rfl

@[simp] theorem bumpSeq_d (s : State) :
    s.bumpSeq.d = s.d := rfl
@[simp] theorem bumpSeq_c (s : State) :
    s.bumpSeq.c = s.c := rfl
@[simp] theorem bumpSeq_seq (s : State) :
    s.bumpSeq.seq = s.seq + 1 := rfl
@[simp] theorem bumpSeq_cmd (s : State) :
    s.bumpSeq.cmd = s.cmd := rfl
@[simp] theorem bumpSeq_vcmPending (s : State) :
    s.bumpSeq.vcmPending = s.vcmPending := rfl
@[simp] theorem bumpSeq_out (s : State) :
    s.bumpSeq.out = s.out := rfl
@[simp] theorem bumpSeq_mode (s : State) :
    s.bumpSeq.mode = s.mode := rfl
@[simp] theorem bumpSeq_modeIn (s : State) :
    s.bumpSeq.modeIn = s.modeIn := rfl
@[simp] theorem bumpSeq_vcmIn (s : State) :
    s.bumpSeq.vcmIn = s.vcmIn := rfl
@[simp] theorem bumpSeq_resetIn (s : State) :
    s.bumpSeq.resetIn = s.resetIn := rfl

@[simp] theorem withCmd_d (s : State) (ws : List Word) :
    (s.withCmd ws).d = s.d := rfl
@[simp] theorem withCmd_c (s : State) (ws : List Word) :
    (s.withCmd ws).c = s.c := rfl
@[simp] theorem withCmd_seq (s : State) (ws : List Word) :
    (s.withCmd ws).seq = s.seq := rfl
@[simp] theorem withCmd_cmd (s : State) (ws : List Word) :
    (s.withCmd ws).cmd = ws := rfl
@[simp] theorem withCmd_vcmPending (s : State) (ws : List Word) :
    (s.withCmd ws).vcmPending = s.vcmPending := rfl
@[simp] theorem withCmd_out (s : State) (ws : List Word) :
    (s.withCmd ws).out = s.out := rfl
@[simp] theorem withCmd_mode (s : State) (ws : List Word) :
    (s.withCmd ws).mode = s.mode := rfl
@[simp] theorem withCmd_modeIn (s : State) (ws : List Word) :
    (s.withCmd ws).modeIn = s.modeIn := rfl
@[simp] theorem withCmd_vcmIn (s : State) (ws : List Word) :
    (s.withCmd ws).vcmIn = s.vcmIn := rfl
@[simp] theorem withCmd_resetIn (s : State) (ws : List Word) :
    (s.withCmd ws).resetIn = s.resetIn := rfl

@[simp] theorem afterSample_d (s : State) :
    s.afterSample.d = s.d := rfl
@[simp] theorem afterSample_c (s : State) :
    s.afterSample.c = s.c := rfl
@[simp] theorem afterSample_seq (s : State) :
    s.afterSample.seq = s.seq := rfl
@[simp] theorem afterSample_cmd (s : State) :
    s.afterSample.cmd = s.cmd := rfl
@[simp] theorem afterSample_vcmPending (s : State) :
    s.afterSample.vcmPending = s.vcmPending := rfl
@[simp] theorem afterSample_out (s : State) :
    s.afterSample.out = s.out := rfl
@[simp] theorem afterSample_mode (s : State) :
    s.afterSample.mode = s.sampledMode := rfl
@[simp] theorem afterSample_modeIn (s : State) :
    s.afterSample.modeIn = s.modeIn.tail := rfl
@[simp] theorem afterSample_vcmIn (s : State) :
    s.afterSample.vcmIn = s.vcmIn := rfl
@[simp] theorem afterSample_resetIn (s : State) :
    s.afterSample.resetIn = s.resetIn := rfl

@[simp] theorem hardwareReset_d (s : State) :
    s.hardwareReset.d = Vector.replicate 32 ShadowValue.zero := rfl
@[simp] theorem hardwareReset_c (s : State) :
    s.hardwareReset.c = Vector.replicate 32 ShadowValue.zero := rfl
@[simp] theorem hardwareReset_seq (s : State) :
    s.hardwareReset.seq = 0 := rfl
@[simp] theorem hardwareReset_cmd (s : State) :
    s.hardwareReset.cmd = [] := rfl
@[simp] theorem hardwareReset_vcmPending (s : State) :
    s.hardwareReset.vcmPending = none := rfl
@[simp] theorem hardwareReset_out (s : State) :
    s.hardwareReset.out = [] := rfl
@[simp] theorem hardwareReset_mode (s : State) :
    s.hardwareReset.mode = s.mode := rfl
@[simp] theorem hardwareReset_modeIn (s : State) :
    s.hardwareReset.modeIn = s.modeIn := rfl
@[simp] theorem hardwareReset_vcmIn (s : State) :
    s.hardwareReset.vcmIn = s.vcmIn := rfl
@[simp] theorem hardwareReset_resetIn (s : State) :
    s.hardwareReset.resetIn = s.resetIn := rfl

@[simp] theorem validateSlot_seq (s : State) (f : FileSel) (i : RegIdx) (w : Word) :
    (s.validateSlot f i w).seq = s.seq := rfl
@[simp] theorem validateSlot_cmd (s : State) (f : FileSel) (i : RegIdx) (w : Word) :
    (s.validateSlot f i w).cmd = s.cmd := rfl
@[simp] theorem validateSlot_vcmPending (s : State) (f : FileSel) (i : RegIdx) (w : Word) :
    (s.validateSlot f i w).vcmPending = s.vcmPending := rfl
@[simp] theorem validateSlot_out (s : State) (f : FileSel) (i : RegIdx) (w : Word) :
    (s.validateSlot f i w).out = s.out := rfl
@[simp] theorem validateSlot_mode (s : State) (f : FileSel) (i : RegIdx) (w : Word) :
    (s.validateSlot f i w).mode = s.mode := rfl
@[simp] theorem validateSlot_modeIn (s : State) (f : FileSel) (i : RegIdx) (w : Word) :
    (s.validateSlot f i w).modeIn = s.modeIn := rfl
@[simp] theorem validateSlot_vcmIn (s : State) (f : FileSel) (i : RegIdx) (w : Word) :
    (s.validateSlot f i w).vcmIn = s.vcmIn := rfl
@[simp] theorem validateSlot_resetIn (s : State) (f : FileSel) (i : RegIdx) (w : Word) :
    (s.validateSlot f i w).resetIn = s.resetIn := rfl

@[simp] theorem shift_c (s : State) (v : ShadowValue) :
    (s.shift v).c = s.c := rfl
@[simp] theorem shift_seq (s : State) (v : ShadowValue) :
    (s.shift v).seq = s.seq := rfl
@[simp] theorem shift_cmd (s : State) (v : ShadowValue) :
    (s.shift v).cmd = s.cmd := rfl
@[simp] theorem shift_vcmPending (s : State) (v : ShadowValue) :
    (s.shift v).vcmPending = s.vcmPending := rfl
@[simp] theorem shift_out (s : State) (v : ShadowValue) :
    (s.shift v).out = s.out := rfl
@[simp] theorem shift_mode (s : State) (v : ShadowValue) :
    (s.shift v).mode = s.mode := rfl
@[simp] theorem shift_modeIn (s : State) (v : ShadowValue) :
    (s.shift v).modeIn = s.modeIn := rfl
@[simp] theorem shift_vcmIn (s : State) (v : ShadowValue) :
    (s.shift v).vcmIn = s.vcmIn := rfl
@[simp] theorem shift_resetIn (s : State) (v : ShadowValue) :
    (s.shift v).resetIn = s.resetIn := rfl

end Sys2Proof.Machine
end

