-- ==== Sys2Proof/Laws/Ops.lean ====
section
/-! SUPPORT. One law per shared operation: what it does to every slot, to SEQ, to the events and to the inputs. -/

namespace Sys2Proof.Machine

/-! ### Slots -/

theorem slot_writeSlot (s : State) (f g : FileSel) (i j : RegIdx) (v : ShadowValue) :
    (s.writeSlot f i v).slot g j = if g = f ∧ j = i then v else s.slot g j := by
  cases f <;> cases g <;> simp [State.slot, State.writeSlot, Vector.getElem_set, Fin.ext_iff, eq_comm]

@[simp] theorem slot_writeSlot_same (s : State) (f : FileSel) (i : RegIdx) (v : ShadowValue) :
    (s.writeSlot f i v).slot f i = v := by simp [slot_writeSlot]

@[simp] theorem slot_emit (s : State) (e : Event) (f : FileSel) (i : RegIdx) :
    (s.emit e).slot f i = s.slot f i := by cases f <;> rfl

@[simp] theorem slot_bumpSeq (s : State) (f : FileSel) (i : RegIdx) : s.bumpSeq.slot f i = s.slot f i := by
  cases f <;> rfl

@[simp] theorem slot_withCmd (s : State) (ws : List Word) (f : FileSel) (i : RegIdx) :
    (s.withCmd ws).slot f i = s.slot f i := by cases f <;> rfl

@[simp] theorem slot_afterSample (s : State) (f : FileSel) (i : RegIdx) :
    s.afterSample.slot f i = s.slot f i := by cases f <;> rfl

@[simp] theorem slot_zeroFiles (s : State) (f : FileSel) (i : RegIdx) :
    s.zeroFiles.slot f i = ShadowValue.zero := by cases f <;> simp [State.slot]

@[simp] theorem slot_hardwareReset (s : State) (f : FileSel) (i : RegIdx) :
    s.hardwareReset.slot f i = ShadowValue.zero := by cases f <;> simp [State.slot]

/-- Two states with the same slots hold the same files. -/
theorem files_ext {s t : State} (h : ∀ f i, s.slot f i = t.slot f i) : s.d = t.d ∧ s.c = t.c := by
  constructor
  · exact Vector.ext (fun i hi => h .data ⟨i, hi⟩)
  · exact Vector.ext (fun i hi => h .ctrl ⟨i, hi⟩)

/-! ### Validate -/

theorem validate_of_eq {v : ShadowValue} {w : Word} (h : v.raw = w) : validate v w = v := by simp [validate, h]

theorem validate_of_ne {v : ShadowValue} {w : Word} (h : v.raw ≠ w) : validate v w = degrade w := by
  simp [validate, h]

@[simp] theorem degrade_raw (w : Word) : (degrade w).raw = w := rfl
@[simp] theorem degrade_flags (w : Word) : (degrade w).flags = fNone := rfl
@[simp] theorem degrade_z (w : Word) : (degrade w).z = 0 := rfl
@[simp] theorem degrade_seq (w : Word) : (degrade w).seq = 0 := rfl

@[simp] theorem validate_raw (v : ShadowValue) (w : Word) : (validate v w).raw = w := by
  unfold validate; split <;> simp_all

/-- The flags after a Validate are the old ones or none. -/
theorem validate_flags (v : ShadowValue) (w : Word) :
    (validate v w).flags = if v.raw = w then v.flags else fNone := by
  unfold validate; split <;> rfl

theorem slot_validateSlot (s : State) (f g : FileSel) (i j : RegIdx) (w : Word) :
    (s.validateSlot f i w).slot g j = if g = f ∧ j = i then validate (s.slot f i) w else s.slot g j :=
  slot_writeSlot ..

@[simp] theorem slot_validateSlot_same (s : State) (f : FileSel) (i : RegIdx) (w : Word) :
    (s.validateSlot f i w).slot f i = validate (s.slot f i) w := by simp [slot_validateSlot]

/-! ### Shift and the register-write rule -/

/-- The slots after a push (R130). -/
theorem slot_shift (s : State) (v : ShadowValue) (f : FileSel) (j : RegIdx) :
    (s.shift v).slot f j =
      if f = .data ∧ (j = sxyp ∨ j = sxy2) then v
      else if f = .data ∧ j = sxy1 then s.slot .data sxy2
      else if f = .data ∧ j = sxy0 then s.slot .data sxy1
      else s.slot f j := by
  simp only [State.shift, slot_writeSlot]
  by_cases hf : f = .data
  · subst hf
    by_cases h15 : j = sxyp <;> by_cases h14 : j = sxy2 <;> by_cases h13 : j = sxy1 <;>
      by_cases h12 : j = sxy0 <;> simp_all [sxy0, sxy1, sxy2, sxyp]
  · simp [hf]

/-- The register-write rule by index class (R131). -/
theorem regWrite_fifoPush (s : State) (v : ShadowValue) (w : Word) : s.regWrite 15 v w = s.shift v := rfl

theorem regWrite_sink (s : State) (v : ShadowValue) (w : Word) : s.regWrite 31 v w = s := rfl

theorem regWrite_plain {i : RegIdx} (h15 : i ≠ 15) (h31 : i ≠ 31) (s : State) (v : ShadowValue) (w : Word) :
    s.regWrite i v w = s.writeSlot .data i (withRaw v w) := by
  simp [State.regWrite, regClass, sxyp, sink, h15, h31]

/-- Any statement about a register write holds if it holds of its three arms. -/
theorem regWrite_cases {P : State → Prop} (s : State) (i : RegIdx) (v : ShadowValue) (w : Word)
    (push : i = 15 → P (s.shift v)) (discard : i = 31 → P s)
    (plain : i ≠ 15 → i ≠ 31 → P (s.writeSlot .data i (withRaw v w))) : P (s.regWrite i v w) := by
  by_cases h15 : i = 15
  · subst h15; exact push rfl
  by_cases h31 : i = 31
  · subst h31; exact discard rfl
  rw [regWrite_plain h15 h31]; exact plain h15 h31

/-- What a register write leaves alone: everything but the data file. -/
theorem regWrite_frame (s : State) (i : RegIdx) (v : ShadowValue) (w : Word) :
    (s.regWrite i v w).c = s.c ∧ (s.regWrite i v w).seq = s.seq ∧ (s.regWrite i v w).cmd = s.cmd ∧
      (s.regWrite i v w).vcmPending = s.vcmPending ∧ (s.regWrite i v w).out = s.out ∧
      (s.regWrite i v w).mode = s.mode ∧ (s.regWrite i v w).modeIn = s.modeIn ∧
      (s.regWrite i v w).vcmIn = s.vcmIn ∧ (s.regWrite i v w).resetIn = s.resetIn := by
  unfold State.regWrite
  split <;> simp

@[simp] theorem regWrite_c (s : State) (i : RegIdx) (v : ShadowValue) (w : Word) :
    (s.regWrite i v w).c = s.c := (regWrite_frame s i v w).1
@[simp] theorem regWrite_seq (s : State) (i : RegIdx) (v : ShadowValue) (w : Word) :
    (s.regWrite i v w).seq = s.seq := (regWrite_frame s i v w).2.1
@[simp] theorem regWrite_cmd (s : State) (i : RegIdx) (v : ShadowValue) (w : Word) :
    (s.regWrite i v w).cmd = s.cmd := (regWrite_frame s i v w).2.2.1
@[simp] theorem regWrite_vcmPending (s : State) (i : RegIdx) (v : ShadowValue) (w : Word) :
    (s.regWrite i v w).vcmPending = s.vcmPending := (regWrite_frame s i v w).2.2.2.1
@[simp] theorem regWrite_out (s : State) (i : RegIdx) (v : ShadowValue) (w : Word) :
    (s.regWrite i v w).out = s.out := (regWrite_frame s i v w).2.2.2.2.1
@[simp] theorem regWrite_mode (s : State) (i : RegIdx) (v : ShadowValue) (w : Word) :
    (s.regWrite i v w).mode = s.mode := (regWrite_frame s i v w).2.2.2.2.2.1
@[simp] theorem regWrite_modeIn (s : State) (i : RegIdx) (v : ShadowValue) (w : Word) :
    (s.regWrite i v w).modeIn = s.modeIn := (regWrite_frame s i v w).2.2.2.2.2.2.1
@[simp] theorem regWrite_vcmIn (s : State) (i : RegIdx) (v : ShadowValue) (w : Word) :
    (s.regWrite i v w).vcmIn = s.vcmIn := (regWrite_frame s i v w).2.2.2.2.2.2.2.1
@[simp] theorem regWrite_resetIn (s : State) (i : RegIdx) (v : ShadowValue) (w : Word) :
    (s.regWrite i v w).resetIn = s.resetIn := (regWrite_frame s i v w).2.2.2.2.2.2.2.2

/-! ### The memory port -/

/-- LDMEM's request with an answer at hand (R54, R176). -/
theorem requestVcm_answered {s : State} {a : SvWire} {rest : List SvWire} (h : s.vcmIn = a :: rest)
    (r : VcmRequest) :
    s.requestVcm r =
      ({ s.emit (.mVcm r.address r.rawWord) with vcmIn := rest }).regWrite r.ddst (svOfWire a) r.rawWord := by
  simp [State.requestVcm, h]

/-- LDMEM's request without an answer (R55). -/
theorem requestVcm_waits {s : State} (h : s.vcmIn = []) (r : VcmRequest) :
    s.requestVcm r = { s.emit (.mVcm r.address r.rawWord) with vcmPending := some r } := by
  simp [State.requestVcm, h]

theorem resumeVcm_answered {s : State} {a : SvWire} {rest : List SvWire} (h : s.vcmIn = a :: rest)
    (r : VcmRequest) :
    s.resumeVcm r =
      ({ s with vcmIn := rest, vcmPending := none }).regWrite r.ddst (svOfWire a) r.rawWord := by
  simp [State.resumeVcm, h]

theorem resumeVcm_waits {s : State} (h : s.vcmIn = []) (r : VcmRequest) : s.resumeVcm r = s := by
  simp [State.resumeVcm, h]

/-! ### The wire layout -/

/-- A ShadowValue survives the wire (R57, R89). -/
@[simp] theorem svOfWire_svToWire (v : ShadowValue) : svOfWire (svToWire v) = v := by
  cases v with
  | mk x y z raw flags seq =>
    simp only [svOfWire, svToWire, ShadowValue.mk.injEq, true_and, and_true]
    ext k hk
    simp [hk]
    omega

/-- An I64 survives its two words (R88). -/
@[simp] theorem i64OfWords_lo_hi (v : DWord) : i64OfWords (i64Lo v) (i64Hi v) = v := by
  apply BitVec.eq_of_getLsbD_eq
  intro k hk
  simp only [i64OfWords, i64Lo, i64Hi, BitVec.getLsbD_append, BitVec.getLsbD_extractLsb']
  by_cases h : k < 32
  · simp [h]
  · simp only [h, if_false, show 32 + (k - 32) = k by omega, show k - 32 < 32 by omega]
    simp

end Sys2Proof.Machine
end

