-- ==== Sys2Proof/Laws/Decode.lean ====
section
/-! SUPPORT. Header words as their fields, what a row of the command table selects, the operands of an encoded
command, the packet at the head of a stream. -/

namespace Sys2Proof

open Sys2Proof.Machine

/-! ### A header word is its fields -/

theorem append_eq_append_iff_parts {n m : Nat} (a b : BitVec n) (c d : BitVec m) :
    a ++ c = b ++ d ↔ a = b ∧ c = d := by
  constructor
  · intro h
    have hb : ∀ k, (a ++ c).getLsbD k = (b ++ d).getLsbD k := fun k => by rw [h]
    simp only [BitVec.getLsbD_append] at hb
    constructor
    · apply BitVec.eq_of_getLsbD_eq
      intro i hi
      simpa using hb (m + i)
    · apply BitVec.eq_of_getLsbD_eq
      intro i hi
      simpa [hi] using hb i
  · rintro ⟨rfl, rfl⟩; rfl

/-- The word with these fields (R81). -/
def Header.word (h : Header) : Word := (h.op ++ h.z1 ++ h.ra ++ h.z2 ++ h.rb ++ h.z3 ++ h.f : Word)

theorem fields_append_inj (h k : Header) :
    ((h.op ++ h.z1 ++ h.ra ++ h.z2 ++ h.rb ++ h.z3 ++ h.f : Word) =
      (k.op ++ k.z1 ++ k.ra ++ k.z2 ++ k.rb ++ k.z3 ++ k.f : Word)) ↔ h = k := by
  cases h; cases k
  simp only [append_eq_append_iff_parts, Header.mk.injEq]
  tauto

theorem fields_append_and (h m : Header) :
    ((h.op ++ h.z1 ++ h.ra ++ h.z2 ++ h.rb ++ h.z3 ++ h.f : Word) &&&
      (m.op ++ m.z1 ++ m.ra ++ m.z2 ++ m.rb ++ m.z3 ++ m.f : Word)) =
    ((h.op &&& m.op) ++ (h.z1 &&& m.z1) ++ (h.ra &&& m.ra) ++ (h.z2 &&& m.z2) ++ (h.rb &&& m.rb) ++
      (h.z3 &&& m.z3) ++ (h.f &&& m.f) : Word) := by
  simp only [BitVec.and_append]

theorem Header.word_inj {h k : Header} : h.word = k.word ↔ h = k := fields_append_inj h k

/-- No bit of a header word lies outside its fields. -/
@[simp] theorem word_headerFields (h : Word) : (headerFields h).word = h := by
  apply BitVec.eq_of_getLsbD_eq
  intro i hi
  simp only [Header.word, headerFields, BitVec.getLsbD_append, BitVec.getLsbD_extractLsb']
  interval_cases i <;> simp

@[simp] theorem headerFields_word (h : Header) : headerFields h.word = h :=
  Header.word_inj.1 (word_headerFields h.word)

theorem word_and (h m : Header) :
    h.word &&& m.word =
      (⟨h.op &&& m.op, h.z1 &&& m.z1, h.ra &&& m.ra, h.z2 &&& m.z2, h.rb &&& m.rb, h.z3 &&& m.z3, h.f &&& m.f⟩ :
        Header).word := fields_append_and h m

/-! ### Rows -/

/-- The OP byte of a row (R84). -/
def opCode : Opcode → BitVec 8
  | .init => 0x01
  | .srd => 0x02
  | .swr => 0x03
  | .val => 0x04
  | .rdata => 0x05
  | .wdata => 0x06
  | .rctrl => 0x07
  | .wctrl => 0x08
  | .ldmem => 0x09
  | .stmem => 0x0A
  | .pushf => 0x0B
  | .pushx => 0x0C
  | .nclipv => 0x0D
  | .nclip => 0x0E

/-- The mask of a row, field by field: everything but the fields its command uses. -/
def maskFields (op : Opcode) : Header :=
  let h : Header := ⟨opCode op, 0, 0, 0, 0, 0, 0⟩
  ⟨0xFF, 7, if h.usesRa then 0 else 31, 7, if h.usesRb then 0 else 31, 127, if h.usesF then 0 else 1⟩

theorem row_words {r : OpRow} (hr : r ∈ opTable) :
    r.mask = (maskFields r.op).word ∧ r.pat = (⟨opCode r.op, 0, 0, 0, 0, 0, 0⟩ : Header).word := by
  revert r
  decide

/-- Masking a field with all ones keeps it. -/
theorem and_ones (n : Nat) (x : BitVec n) : x &&& BitVec.allOnes n = x := BitVec.and_allOnes

/-- A row selects a header word exactly when OP is the row's and the header is well formed. -/
theorem selects_iff {r : OpRow} (hr : r ∈ opTable) (h : Word) :
    r.selects h = true ↔ (headerFields h).op = opCode r.op ∧ (headerFields h).wellFormed = true := by
  obtain ⟨hm, hp⟩ := row_words hr
  rw [OpRow.selects, beq_iff_eq, hm, hp]
  conv_lhs => rw [← word_headerFields h, word_and, Header.word_inj]
  generalize headerFields h = f
  obtain ⟨op, z1, ra, z2, rb, z3, fb⟩ := f
  have h8 : op &&& 255#8 = op := and_ones 8 op
  have hz1 : z1 &&& 7#3 = z1 := and_ones 3 z1
  have hra : ra &&& 31#5 = ra := and_ones 5 ra
  have hz2 : z2 &&& 7#3 = z2 := and_ones 3 z2
  have hrb : rb &&& 31#5 = rb := and_ones 5 rb
  have hz3 : z3 &&& 127#7 = z3 := and_ones 7 z3
  have hf : fb &&& 1#1 = fb := and_ones 1 fb
  cases r.op <;>
    · simp only [maskFields, opCode, Header.usesRa, Header.usesRb, Header.usesF]
      simp +contextual [Header.wellFormed, Header.opDefined, Header.zerosZero, Header.unusedZero, Header.usesRa,
        Header.usesRb, Header.usesF, h8, hz1, hra, hz2, hrb, hz3, hf]
      try tauto

/-! ### The header of an encoded command -/

theorem encodeHeader_eq (i : Instr) : encodeHeader i = i.header.word := by cases i <;> rfl

@[simp] theorem headerFields_encodeHeader (i : Instr) : headerFields (encodeHeader i) = i.header := by
  rw [encodeHeader_eq, headerFields_word]

/-- The row of a command (R84). -/
def opcodeOf : Instr → Opcode
  | .init => .init
  | .srd _ _ => .srd
  | .swr _ _ _ => .swr
  | .val _ _ _ => .val
  | .rdata _ _ _ _ => .rdata
  | .wdata _ _ _ _ _ => .wdata
  | .rctrl _ _ _ _ => .rctrl
  | .wctrl _ _ _ _ _ => .wctrl
  | .ldmem _ _ _ => .ldmem
  | .stmem _ _ _ => .stmem
  | .pushf _ _ _ _ => .pushf
  | .pushx _ _ _ _ => .pushx
  | .nclipv _ _ _ => .nclipv
  | .nclip => .nclip

theorem header_op (i : Instr) : i.header.op = opCode (opcodeOf i) := by cases i <;> rfl

/-- The row of a command, with its length (R84). -/
def rowOf (i : Instr) : OpRow :=
  ⟨opcodeOf i, (⟨opCode (opcodeOf i), 0, 0, 0, 0, 0, 0⟩ : Header).word, (maskFields (opcodeOf i)).word,
    (encodePayload i).length + 1⟩

theorem rowOf_mem (i : Instr) : rowOf i ∈ opTable := by
  cases i <;> simp [rowOf, opTable, opcodeOf] <;> exact ⟨rfl, rfl, rfl⟩

/-- A row is known by its opcode. -/
theorem opTable_op_inj {r q : OpRow} (hr : r ∈ opTable) (hq : q ∈ opTable) (h : opCode r.op = opCode q.op) :
    r = q := by
  have : ∀ r ∈ opTable, ∀ q ∈ opTable, opCode r.op = opCode q.op → r = q := by decide
  exact this r hr q hq h

theorem header_wellFormed (i : Instr) : i.header.wellFormed = true := by cases i <;> rfl

/-- The header of an encoded command selects the command's row. -/
theorem selectRow_encodeHeader (i : Instr) : selectRow (encodeHeader i) = some (rowOf i) := by
  have hs : (rowOf i).selects (encodeHeader i) = true := by
    rw [selects_iff (rowOf_mem i), headerFields_encodeHeader]
    exact ⟨header_op i, header_wellFormed i⟩
  cases h : selectRow (encodeHeader i) with
  | none => exact absurd hs (List.find?_eq_none.1 h _ (rowOf_mem i))
  | some r =>
    have hf : opTable.find? (fun r => r.selects (encodeHeader i)) = some r := h
    have hr := List.mem_of_find?_eq_some hf
    have hrs : r.selects (encodeHeader i) = true := by simpa using List.find?_some hf
    have h1 := ((selects_iff hr _).1 hrs).1
    have h2 := ((selects_iff (rowOf_mem i) _).1 hs).1
    rw [opTable_op_inj hr (rowOf_mem i) (h1.symm.trans h2)]

/-- A stream that begins with a command's header, when the payload has come and when it has not. -/
theorem decode_encodeHeader (i : Instr) (p : List Word) :
    decode (encodeHeader i :: p) =
      if p.length < (encodePayload i).length then .incomplete
      else .instr (assemble (opcodeOf i) (encodeHeader i) (p.take (encodePayload i).length))
        (p.drop (encodePayload i).length) := by
  simp [decode, selectRow_encodeHeader, rowOf]

theorem raOf_eq (h : Word) : raOf h = (headerFields h).ra.toFin := rfl
theorem rbOf_eq (h : Word) : rbOf h = (headerFields h).rb.toFin := rfl
theorem fileOf_eq (h : Word) : fileOf h = if (headerFields h).f = 0 then .data else .ctrl := rfl

@[simp] theorem fileOf_bit (f : FileSel) : (if f.bit = 0 then FileSel.data else FileSel.ctrl) = f := by
  cases f <;> rfl

/-! ### The opcode table's numbering -/

theorem encode_length (i : Instr) : (encode i).length = 1 + (encodePayload i).length := by
  simp [encode, Nat.add_comm]

end Sys2Proof
end

