-- ==== Sys2Proof/Laws/Exec.lean ====
section
/-! SUPPORT. What each arm of exec does, as one equation, and what a step can do, as one inversion lemma. -/

namespace Sys2Proof.Machine

@[simp] theorem exec_init (s : State) : exec .init s = .next s.zeroFiles := rfl

@[simp] theorem exec_srd (f : FileSel) (i : RegIdx) (s : State) :
    exec (.srd f i) s = .next (s.emit (.resSv (s.slot f i))) := rfl

@[simp] theorem exec_swr (f : FileSel) (i : RegIdx) (v : ShadowValue) (s : State) :
    exec (.swr f i v) s = .next (s.writeSlot f i v) := rfl

@[simp] theorem exec_val (f : FileSel) (i : RegIdx) (w : Word) (s : State) :
    exec (.val f i w) s = .next (s.validateSlot f i w) := rfl

@[simp] theorem exec_rdata (a b : RegIdx) (rt rd : Word) (s : State) :
    exec (.rdata a b rt rd) s =
      .next ((s.rederiveHead Config.headRederiveOnRead a).readTransfer .data a b rt rd) := rfl

@[simp] theorem exec_wdata (a b : RegIdx) (rd rt : Word) (src : ShadowValue) (s : State) :
    exec (.wdata a b rd rt src) s =
      .next ((s.emit (.host a (validate src rt))).regWrite b (validate src rt) rd) := rfl

@[simp] theorem exec_rctrl (a b : RegIdx) (rt rd : Word) (s : State) :
    exec (.rctrl a b rt rd) s = .next (s.readTransfer .ctrl a b rt rd) := rfl

@[simp] theorem exec_wctrl (a b : RegIdx) (rd rt : Word) (src : ShadowValue) (s : State) :
    exec (.wctrl a b rd rt src) s =
      .next ((s.emit (.host a (validate src rt))).writeSlot .ctrl b (withRaw (validate src rt) rd)) := rfl

@[simp] theorem exec_ldmem (b : RegIdx) (a w : Word) (s : State) :
    exec (.ldmem b a w) s = .next (s.requestVcm ⟨b, a, w⟩) := rfl

@[simp] theorem exec_stmem (i : RegIdx) (a w : Word) (s : State) :
    exec (.stmem i a w) s =
      .next ((s.validateSlot .data i w).emit (.mWr ((s.validateSlot .data i w).slot .data i) a)) := rfl

@[simp] theorem exec_pushf (x y z rp : Word) (s : State) :
    exec (.pushf x y z rp) s = .next (s.push x y z rp) := rfl

@[simp] theorem exec_pushx (x y z : DWord) (rp : Word) (s : State) :
    exec (.pushx x y z rp) s = .next (s.push (fixedToF x) (fixedToF y) (integerToF z) rp) := rfl

@[simp] theorem exec_nclipv (r0 r1 r2 : Word) (s : State) :
    exec (.nclipv r0 r1 r2) s =
      .next ((s.validateFifo r0 r1 r2).emit (.resWord (boolWord (s.validateFifo r0 r1 r2).fifoXyv))) := rfl

@[simp] theorem exec_nclip (s : State) : exec .nclip s = .next (s.emit (.resWord s.nclipResult)) := rfl

/-! ### The shared meanings -/

/-- A read transfer: the slot validated, one H event with the copy's raw forced (R172, R174). -/
theorem readTransfer_eq (s : State) (f : FileSel) (i h : RegIdx) (rt rd : Word) :
    s.readTransfer f i h rt rd =
      (s.validateSlot f i rd).emit (.host h (withRaw (validate (s.slot f i) rd) rt)) := by
  simp [State.readTransfer]

/-- The slots after the head re-derive (R171). -/
theorem slot_rederiveHead (s : State) (b : Bool) (i : RegIdx) (f : FileSel) (j : RegIdx) :
    (s.rederiveHead b i).slot f j =
      if i = sxyp ∧ b = true ∧ f = .data ∧ j = sxyp then s.slot .data sxy2 else s.slot f j := by
  unfold State.rederiveHead
  split
  · simp_all [slot_writeSlot]
  · simp_all

/-- What the head re-derive leaves alone: everything but the data file. -/
theorem rederiveHead_frame (s : State) (b : Bool) (i : RegIdx) :
    (s.rederiveHead b i).c = s.c ∧ (s.rederiveHead b i).seq = s.seq ∧ (s.rederiveHead b i).cmd = s.cmd ∧
      (s.rederiveHead b i).vcmPending = s.vcmPending ∧ (s.rederiveHead b i).out = s.out ∧
      (s.rederiveHead b i).mode = s.mode ∧ (s.rederiveHead b i).modeIn = s.modeIn ∧
      (s.rederiveHead b i).vcmIn = s.vcmIn ∧ (s.rederiveHead b i).resetIn = s.resetIn := by
  unfold State.rederiveHead
  split <;> simp

/-- The slots after a push by PUSHF's rule (R133). -/
theorem slot_push (s : State) (x y z rp : Word) (f : FileSel) (j : RegIdx) :
    (s.push x y z rp).slot f j = (s.shift (pushedEntry s.sampledMode s.seq x y z rp)).slot f j := by
  simp [State.push, slot_shift]

/-- A push notifies on the V channel in both modes (R53, R133). -/
@[simp] theorem pushEvent_channel (m : Mode) (rp : Word) (v : ShadowValue) : (pushEvent m rp v).channel = .V := by
  cases h : m.vc <;> simp [pushEvent, h, Event.channel]

/-- A push moves SEQ by one and sends one V event (R31, R133). -/
theorem push_frame (s : State) (x y z rp : Word) :
    (s.push x y z rp).seq = s.seq + 1 ∧
      (s.push x y z rp).out =
        s.out ++ [pushEvent s.sampledMode rp (pushedEntry s.sampledMode s.seq x y z rp)] ∧
      (s.push x y z rp).mode = s.sampledMode ∧ (s.push x y z rp).modeIn = s.modeIn.tail ∧
      (s.push x y z rp).c = s.c ∧ (s.push x y z rp).cmd = s.cmd ∧
      (s.push x y z rp).vcmPending = s.vcmPending ∧ (s.push x y z rp).vcmIn = s.vcmIn ∧
      (s.push x y z rp).resetIn = s.resetIn := by
  simp [State.push]

/-! ### The step -/

/-- What a step can do: reset, go on with an outstanding request, wait for the rest of a packet, stop at a reserved
header, or run the decoded command. -/
theorem step_cases (s : State) :
    (s.resetIn = true ∧ step s = .next s.hardwareReset) ∨
    (∃ r, s.resetIn = false ∧ s.vcmPending = some r ∧ step s = .next (s.resumeVcm r)) ∨
    (s.resetIn = false ∧ s.vcmPending = none ∧ decode s.cmd = .incomplete ∧ step s = .next s) ∨
    (∃ why, s.resetIn = false ∧ s.vcmPending = none ∧ decode s.cmd = .reserved why ∧
      step s = .fault (.reservedHeader why)) ∨
    (∃ i rest, s.resetIn = false ∧ s.vcmPending = none ∧ decode s.cmd = .instr i rest ∧
      step s = exec i (s.withCmd rest)) := by
  unfold step
  cases hr : s.resetIn
  · cases hp : s.vcmPending
    · cases hd : decode s.cmd <;> simp
    · simp
  · simp

end Sys2Proof.Machine
end

