-- ==== Sys2Proof/Laws/Effects.lean ====
section
/-! SUPPORT. Laws of the terms the claims are stated in: header words as numbers, one written slot, flags,
pushes, the reference environment. -/

namespace Sys2Proof.Machine

open Sys2Proof

/-- A header word as a number (R81): the two spellings of a command's header agree. -/
theorem word_eq_headerNumber (op : Nat) (hop : op < 256) (a b : RegIdx) (f : Nat) (hf : f < 2) :
    (⟨BitVec.ofNat 8 op, 0, .ofFin a, 0, .ofFin b, 0, BitVec.ofNat 1 f⟩ : Header).word =
      headerNumber op a.val b.val f := by
  apply BitVec.eq_of_toNat_eq
  have ha := a.isLt
  have hb := b.isLt
  have e1 : ∀ (n m : Nat) (x : BitVec n) (y : BitVec m), (x ++ y).toNat = x.toNat * 2 ^ m + y.toNat := by
    intro n m x y
    rw [BitVec.toNat_append, Nat.shiftLeft_eq, Nat.mul_comm, ← Nat.two_pow_add_eq_or_of_lt y.isLt]
  have e2 : (⟨BitVec.ofNat 8 op, 0, .ofFin a, 0, .ofFin b, 0, BitVec.ofNat 1 f⟩ : Header).word.toNat =
      ((((((op * 2 ^ 3 + 0) * 2 ^ 5 + a.val) * 2 ^ 3 + 0) * 2 ^ 5 + b.val) * 2 ^ 7 + 0) * 2 ^ 1 + f) := by
    unfold Header.word
    rw [e1, e1, e1, e1, e1, e1]
    simp only [BitVec.toNat_ofNat, BitVec.toNat_ofFin]
    rw [Nat.mod_eq_of_lt (show op < 2 ^ 8 by omega), Nat.mod_eq_of_lt (show f < 2 ^ 1 by omega)]
    rfl
  rw [e2, headerNumber, BitVec.toNat_ofNat]
  omega

/-- A command's header word and length, from its header fields. -/
theorem encodedAs_of_header (i : Instr) {w : Word} {n : Nat} (h : i.header.word = w)
    (hn : (encodePayload i).length + 1 = n) : EncodedAs i w n :=
  ⟨by rw [encodeHeader_eq, h], by rw [encode_length, Nat.add_comm, hn]⟩

theorem fileNumber_lt (f : FileSel) : fileNumber f < 2 := by cases f <;> decide

theorem bit_eq_ofNat (f : FileSel) : f.bit = BitVec.ofNat 1 (fileNumber f) := by cases f <;> rfl

/-- Writing one slot changes no other. -/
theorem slot_writeSlot_of_ne (s : State) (f : FileSel) (i : RegIdx) (v : ShadowValue) {g : FileSel} {j : RegIdx}
    (h : (g, j) ≠ (f, i)) : (s.writeSlot f i v).slot g j = s.slot g j := by
  rw [slot_writeSlot, if_neg (fun hc => h (by rw [hc.1, hc.2]))]

theorem flagsWithin_refl (a : FlagBits) : FlagsWithin a a := fun _ h => h

theorem flagsWithin_none (a : FlagBits) : FlagsWithin fNone a := by
  intro k h
  simp [fNone] at h

theorem flagsWithin_trans {a b c : FlagBits} (h : FlagsWithin a b) (h' : FlagsWithin b c) : FlagsWithin a c :=
  fun k hk => h' k (h k hk)

/-! ### Pushes -/

/-- The meaning's entry is the one the claims name (R133). -/
theorem pushedEntry_eq (m : Mode) (stamp x y z rp : Word) :
    pushedEntry m stamp x y z rp = entryMade m.tdc x y z rp stamp := rfl

/-- A shift drops the oldest entry and appends the new one (R130). -/
theorem fifoEntries_shift (s : State) (v : ShadowValue) :
    fifoEntries (s.shift v) = (fifoEntries s ++ [v]).drop 1 := by
  simp [fifoEntries, slot_shift, sxyp, sxy2, sxy1, sxy0]

/-- A command that pushes shifts its entry in, whichever of the four ways it pushes (R132). -/
theorem exec_of_pushOf {i : Instr} {s : State} {v : ShadowValue} (h : pushOf i s = some v) :
    ∃ t, exec i s = .next t ∧ ∀ f j, t.slot f j = (s.shift v).slot f j := by
  cases i <;> simp only [pushOf, Option.some.injEq, reduceCtorEq] at h
  case wdata a d rd rt src =>
    split at h
    · rename_i h15
      subst h15
      cases h
      exact ⟨_, exec_wdata .., fun f j => by rw [regWrite_fifoPush]; simp [slot_shift, validate]⟩
    · cases h
  case ldmem d a w =>
    split at h
    · rename_i h15
      subst h15
      cases hv : s.vcmIn with
      | nil => simp [hv] at h
      | cons x xs =>
        simp only [hv, List.head?_cons, Option.map_some, Option.some.injEq] at h
        subst h
        refine ⟨_, exec_ldmem .., fun f j => ?_⟩
        rw [requestVcm_answered hv, regWrite_fifoPush, slot_shift, slot_shift]
        cases f <;> rfl
    · cases h
  case pushf => subst h; exact ⟨_, exec_pushf .., fun f j => slot_push ..⟩
  case pushx => subst h; exact ⟨_, exec_pushx .., fun f j => slot_push ..⟩

/-! ### The reference environment -/

/-- A step of the bench, from the step of its block (R72). -/
theorem bench_step_of_next {b : Bench} {t : State} (h : step b.block = .next t) :
    b.step = .next ((t.out.drop b.block.out.length).foldl Bench.serve ⟨b.env, t⟩) := by
  simp [Bench.step, h]

@[simp] theorem serve_env (b : Bench) (ev : Event) : (b.serve ev).env = b.env.observe ev := rfl
@[simp] theorem serve_vcmIn (b : Bench) (ev : Event) :
    (b.serve ev).block.vcmIn = b.block.vcmIn ++ b.env.reply ev := rfl
@[simp] theorem serve_slot (b : Bench) (ev : Event) (f : FileSel) (i : RegIdx) :
    (b.serve ev).block.slot f i = b.block.slot f i := by cases f <;> rfl

/-- The host slots after an H event (R51, R72). -/
theorem observe_host_hs (e : RefEnv) (idx k : RegIdx) (v : ShadowValue) :
    (e.observe (.host idx v)).hs[k] = if k = idx then v else e.hs[k] := by
  simp [RefEnv.observe, Vector.getElem_set, Fin.ext_iff, eq_comm]

theorem msRead_msWrite_same (m : List (Nat × ShadowValue)) (a : Nat) (v : ShadowValue) :
    msRead (msWrite m a v) a = some v := by
  induction m with
  | nil => simp [msWrite, msRead]
  | cons p m ih =>
    obtain ⟨k, u⟩ := p
    unfold msWrite
    split
    · simp [msRead]
    · split
      · simp [msRead]
      · rename_i h1 h2
        simp only [msRead]
        rw [if_neg (fun h => h2 h.symm), ih]

theorem msRead_msWrite_of_ne (m : List (Nat × ShadowValue)) {a b : Nat} (v : ShadowValue) (h : a ≠ b) :
    msRead (msWrite m a v) b = msRead m b := by
  induction m with
  | nil => simp [msWrite, msRead, h]
  | cons p m ih =>
    obtain ⟨k, u⟩ := p
    unfold msWrite
    split
    · simp [msRead, h]
    · split
      · rename_i h2
        subst h2
        simp [msRead, h]
      · simp only [msRead, ih]

/-- Every address of a written shadow is the new one or an old one. -/
theorem mem_msWrite (m : List (Nat × ShadowValue)) (a : Nat) (v : ShadowValue) {p : Nat × ShadowValue}
    (hp : p ∈ msWrite m a v) : p.1 = a ∨ p ∈ m := by
  induction m with
  | nil => simp [msWrite] at hp; simp [hp]
  | cons q m ih =>
    obtain ⟨k, u⟩ := q
    unfold msWrite at hp
    split at hp
    · rcases List.mem_cons.1 hp with rfl | h
      · exact .inl rfl
      · exact .inr h
    · split at hp
      · rcases List.mem_cons.1 hp with rfl | h
        · exact .inl rfl
        · exact .inr (List.mem_cons_of_mem _ h)
      · rcases List.mem_cons.1 hp with rfl | h
        · exact .inr (List.mem_cons_self ..)
        · exact (ih h).imp_right (List.mem_cons_of_mem _)

/-- A write to the memory shadow keeps its addresses strictly rising. -/
theorem msWf_msWrite {m : List (Nat × ShadowValue)} (h : msWf m) (a : Nat) (v : ShadowValue) :
    msWf (msWrite m a v) := by
  induction m with
  | nil => simp [msWrite, msWf]
  | cons q m ih =>
    obtain ⟨k, u⟩ := q
    have hk := (List.pairwise_cons.1 h).1
    have hm := (List.pairwise_cons.1 h).2
    unfold msWrite
    split
    · rename_i hlt
      refine List.pairwise_cons.2 ⟨fun p hp => ?_, h⟩
      rcases List.mem_cons.1 hp with rfl | hp
      · exact hlt
      · exact Nat.lt_trans hlt (hk p hp)
    · split
      · rename_i heq
        subst heq
        exact List.pairwise_cons.2 ⟨hk, hm⟩
      · rename_i h1 h2
        refine List.pairwise_cons.2 ⟨fun p hp => ?_, ih hm⟩
        rcases mem_msWrite m a v hp with h | h
        · show k < p.1
          omega
        · exact hk p h

end Sys2Proof.Machine
end

