-- ==== Sys2Proof/Laws/PerInstr.lean ====
section
/-! SUPPORT. Statements about every command, one lemma per constructor: the fields of its header word, the length of its
packet. -/

open Sys2Proof

/-- The header word of a command has the command's fields, and they are well formed (R81, R82). -/
def Sys2Proof.Laws.HeaderFields.Statement (i : Instr) : Prop :=
  headerFields (encodeHeader i) = i.header ∧ i.wellFormed = true

theorem Sys2Proof.Laws.HeaderFields.init :
    Sys2Proof.Laws.HeaderFields.Statement .init := ⟨headerFields_encodeHeader _, header_wellFormed _⟩
theorem Sys2Proof.Laws.HeaderFields.srd (f : FileSel) (i : RegIdx) :
    Sys2Proof.Laws.HeaderFields.Statement (.srd f i) := ⟨headerFields_encodeHeader _, header_wellFormed _⟩
theorem Sys2Proof.Laws.HeaderFields.swr (f : FileSel) (i : RegIdx) (v : ShadowValue) :
    Sys2Proof.Laws.HeaderFields.Statement (.swr f i v) := ⟨headerFields_encodeHeader _, header_wellFormed _⟩
theorem Sys2Proof.Laws.HeaderFields.val (f : FileSel) (i : RegIdx) (raw : Word) :
    Sys2Proof.Laws.HeaderFields.Statement (.val f i raw) := ⟨headerFields_encodeHeader _, header_wellFormed _⟩
theorem Sys2Proof.Laws.HeaderFields.rdata (dsrc hdst : RegIdx) (rtVal rdVal : Word) :
    Sys2Proof.Laws.HeaderFields.Statement (.rdata dsrc hdst rtVal rdVal) := ⟨headerFields_encodeHeader _, header_wellFormed _⟩
theorem Sys2Proof.Laws.HeaderFields.wdata (hsrc ddst : RegIdx) (rdVal rtVal : Word) (src : ShadowValue) :
    Sys2Proof.Laws.HeaderFields.Statement (.wdata hsrc ddst rdVal rtVal src) := ⟨headerFields_encodeHeader _, header_wellFormed _⟩
theorem Sys2Proof.Laws.HeaderFields.rctrl (csrc hdst : RegIdx) (rtVal rdVal : Word) :
    Sys2Proof.Laws.HeaderFields.Statement (.rctrl csrc hdst rtVal rdVal) := ⟨headerFields_encodeHeader _, header_wellFormed _⟩
theorem Sys2Proof.Laws.HeaderFields.wctrl (hsrc cdst : RegIdx) (rdVal rtVal : Word) (src : ShadowValue) :
    Sys2Proof.Laws.HeaderFields.Statement (.wctrl hsrc cdst rdVal rtVal src) := ⟨headerFields_encodeHeader _, header_wellFormed _⟩
theorem Sys2Proof.Laws.HeaderFields.ldmem (ddst : RegIdx) (address rawWord : Word) :
    Sys2Proof.Laws.HeaderFields.Statement (.ldmem ddst address rawWord) := ⟨headerFields_encodeHeader _, header_wellFormed _⟩
theorem Sys2Proof.Laws.HeaderFields.stmem (dsrc : RegIdx) (address rawWord : Word) :
    Sys2Proof.Laws.HeaderFields.Statement (.stmem dsrc address rawWord) := ⟨headerFields_encodeHeader _, header_wellFormed _⟩
theorem Sys2Proof.Laws.HeaderFields.pushf (x y z rawPacked : Word) :
    Sys2Proof.Laws.HeaderFields.Statement (.pushf x y z rawPacked) := ⟨headerFields_encodeHeader _, header_wellFormed _⟩
theorem Sys2Proof.Laws.HeaderFields.pushx (x16 y16 z16 : DWord) (rawPacked : Word) :
    Sys2Proof.Laws.HeaderFields.Statement (.pushx x16 y16 z16 rawPacked) := ⟨headerFields_encodeHeader _, header_wellFormed _⟩
theorem Sys2Proof.Laws.HeaderFields.nclipv (raw0 raw1 raw2 : Word) :
    Sys2Proof.Laws.HeaderFields.Statement (.nclipv raw0 raw1 raw2) := ⟨headerFields_encodeHeader _, header_wellFormed _⟩
theorem Sys2Proof.Laws.HeaderFields.nclip :
    Sys2Proof.Laws.HeaderFields.Statement .nclip := ⟨headerFields_encodeHeader _, header_wellFormed _⟩

/-- A command's packet has its row's length (R84, R95). -/
def Sys2Proof.Laws.PacketLength.Statement (i : Instr) : Prop := (encode i).length = (rowOf i).length

theorem Sys2Proof.Laws.PacketLength.init :
    Sys2Proof.Laws.PacketLength.Statement .init := rfl
theorem Sys2Proof.Laws.PacketLength.srd (f : FileSel) (i : RegIdx) :
    Sys2Proof.Laws.PacketLength.Statement (.srd f i) := rfl
theorem Sys2Proof.Laws.PacketLength.swr (f : FileSel) (i : RegIdx) (v : ShadowValue) :
    Sys2Proof.Laws.PacketLength.Statement (.swr f i v) := rfl
theorem Sys2Proof.Laws.PacketLength.val (f : FileSel) (i : RegIdx) (raw : Word) :
    Sys2Proof.Laws.PacketLength.Statement (.val f i raw) := rfl
theorem Sys2Proof.Laws.PacketLength.rdata (dsrc hdst : RegIdx) (rtVal rdVal : Word) :
    Sys2Proof.Laws.PacketLength.Statement (.rdata dsrc hdst rtVal rdVal) := rfl
theorem Sys2Proof.Laws.PacketLength.wdata (hsrc ddst : RegIdx) (rdVal rtVal : Word) (src : ShadowValue) :
    Sys2Proof.Laws.PacketLength.Statement (.wdata hsrc ddst rdVal rtVal src) := rfl
theorem Sys2Proof.Laws.PacketLength.rctrl (csrc hdst : RegIdx) (rtVal rdVal : Word) :
    Sys2Proof.Laws.PacketLength.Statement (.rctrl csrc hdst rtVal rdVal) := rfl
theorem Sys2Proof.Laws.PacketLength.wctrl (hsrc cdst : RegIdx) (rdVal rtVal : Word) (src : ShadowValue) :
    Sys2Proof.Laws.PacketLength.Statement (.wctrl hsrc cdst rdVal rtVal src) := rfl
theorem Sys2Proof.Laws.PacketLength.ldmem (ddst : RegIdx) (address rawWord : Word) :
    Sys2Proof.Laws.PacketLength.Statement (.ldmem ddst address rawWord) := rfl
theorem Sys2Proof.Laws.PacketLength.stmem (dsrc : RegIdx) (address rawWord : Word) :
    Sys2Proof.Laws.PacketLength.Statement (.stmem dsrc address rawWord) := rfl
theorem Sys2Proof.Laws.PacketLength.pushf (x y z rawPacked : Word) :
    Sys2Proof.Laws.PacketLength.Statement (.pushf x y z rawPacked) := rfl
theorem Sys2Proof.Laws.PacketLength.pushx (x16 y16 z16 : DWord) (rawPacked : Word) :
    Sys2Proof.Laws.PacketLength.Statement (.pushx x16 y16 z16 rawPacked) := rfl
theorem Sys2Proof.Laws.PacketLength.nclipv (raw0 raw1 raw2 : Word) :
    Sys2Proof.Laws.PacketLength.Statement (.nclipv raw0 raw1 raw2) := rfl
theorem Sys2Proof.Laws.PacketLength.nclip :
    Sys2Proof.Laws.PacketLength.Statement .nclip := rfl
end

