-- ==== Sys2Proof/Tests/Slice0.lean ====
section
/-! SUPPORT. The model's own tests. Expected values are the spec's: 95_test_vectors.md (vector ids in the names), the
worked examples of the command rules, the reserved-header list. Then one witness for each statement with hypotheses. -/

namespace Sys2Proof.Tests

open Sys2Proof Sys2Proof.Machine

/-! ### Helpers -/

/-- The state after a command; the old state if it stopped. -/
def after (i : Instr) (s : State) : State :=
  match exec i s with
  | .next t => t
  | .fault _ => s
  | .refused _ => s

/-- The state after a step; the old state if it stopped. -/
def afterStep (s : State) : State :=
  match step s with
  | .next t => t
  | .fault _ => s
  | .refused _ => s

/-- The reason of a step that faults. -/
def faultOf (s : State) : Option Fault :=
  match step s with
  | .next _ => none
  | .fault r => some r
  | .refused _ => none

/-- `src` of 95_test_vectors.md, transfers. -/
def src : ShadowValue := ⟨0x3FC00000, 0x40100000, 0x3F800000, 0x00020001, 0b111, 0⟩

/-- The reset state with one slot set. -/
def withSlot (f : FileSel) (i : RegIdx) (v : ShadowValue) : State := State.reset.writeSlot f i v

/-- The reset state with mode levels. -/
def withMode (tdc vc : Bool) : State := { State.reset with mode := ⟨tdc, vc⟩ }

/-- The reset state with SXY0, SXY1, SXY2 holding these x, y and raws, all flags set. -/
def fifo (x0 y0 x1 y1 x2 y2 r0 r1 r2 : Word) : State :=
  ((State.reset.writeSlot .data 12 ⟨x0, y0, 0x3F800000, r0, 0b111, 0⟩).writeSlot .data 13
    ⟨x1, y1, 0x3F800000, r1, 0b111, 1⟩).writeSlot .data 14 ⟨x2, y2, 0x3F800000, r2, 0b111, 2⟩

/-- The FIFO of program P1: (0,0), (1,0), (0,1). -/
def p1 : State := fifo 0 0 0x3F800000 0 0 0x3F800000 0 1 0x00010000

/-! ### Well-formed headers: each check refuses an ill-formed header (R92; the reserved list of 95_test_vectors.md) -/

theorem test_illformed_undefined_op : (Header.wellFormed ⟨0x0F, 0, 0, 0, 0, 0, 0⟩) = false := by decide
theorem test_illformed_z1 : (Header.wellFormed ⟨0x02, 1, 0, 0, 0, 0, 0⟩) = false := by decide
theorem test_illformed_z2 : (Header.wellFormed ⟨0x05, 0, 14, 1, 8, 0, 0⟩) = false := by decide
theorem test_illformed_z3 : (Header.wellFormed ⟨0x02, 0, 14, 0, 0, 1, 0⟩) = false := by decide
theorem test_illformed_unused_ra : (Header.wellFormed ⟨0x09, 0, 14, 0, 14, 0, 0⟩) = false := by decide
theorem test_illformed_unused_rb : (Header.wellFormed ⟨0x0A, 0, 14, 0, 14, 0, 0⟩) = false := by decide
theorem test_illformed_unused_f : (Header.wellFormed ⟨0x05, 0, 14, 0, 8, 0, 1⟩) = false := by decide
theorem test_wellformed_edges :
    [0x021F0001, 0x051F1F00, 0x09001F00, 0x0A1F0000].all (fun h => (headerFields h).wellFormed) = true := by decide

/-! ### Decoding: each command's words written out from the spec's encodings -/

theorem test_decode_store :
    decode [0x01000000, 0x0E000000] = .instr .init [0x0E000000] ∧
    decode [0x020E0000] = .instr (.srd .data 14) [] ∧
    decode [0x030E0000, 0x3FC00000, 0x40100000, 0x3F800000, 0x00020001, 0xFFFFFFFF, 0x00000000] =
      .instr (.swr .data 14 src) [] := by decide

theorem test_decode_val : decode [0x04030001, 0x00000155] = .instr (.val .ctrl 3 0x00000155) [] := by decide

theorem test_decode_transfer :
    decode [0x050E0800, 0x12345678, 0x00020001] = .instr (.rdata 14 8 0x12345678 0x00020001) [] ∧
    decode [0x06080500, 0x0000BEEF, 0x00020001, 0x3FC00000, 0x40100000, 0x3F800000, 0x00020001, 0x00000007, 0] =
      .instr (.wdata 8 5 0x0000BEEF 0x00020001 src) [] ∧
    decode [0x07030400, 0x00000155, 0x00000156] = .instr (.rctrl 3 4 0x00000155 0x00000156) [] ∧
    decode [0x08041F00, 0x80000000, 0x80000001, 0x3F000000, 0x3E800000, 0, 0x80000001, 3, 3] =
      .instr (.wctrl 4 31 0x80000000 0x80000001 ⟨0x3F000000, 0x3E800000, 0, 0x80000001, 0b011, 3⟩) [] ∧
    decode [0x09000300, 0x00000004, 0x00020001] = .instr (.ldmem 3 0x00000004 0x00020001) [] ∧
    decode [0x0A0E0000, 0x1F800010, 0x00020001] = .instr (.stmem 14 0x1F800010 0x00020001) [] := by decide

theorem test_decode_fifo :
    decode [0x0B000000, 0x3FC00000, 0x40100000, 0x40E00000, 0x00020001] =
      .instr (.pushf 0x3FC00000 0x40100000 0x40E00000 0x00020001) [] ∧
    decode [0x0C000000, 0xFFFF8000, 0xFFFFFFFF, 0x00018000, 0, 0xFFFFFFFB, 0xFFFFFFFF, 0xFFFF0001] =
      .instr (.pushx 0xFFFFFFFFFFFF8000 98304 0xFFFFFFFFFFFFFFFB 0xFFFF0001) [] := by decide

theorem test_decode_nclip :
    decode [0x0D000000, 5, 1, 0x00010001] = .instr (.nclipv 5 1 0x00010001) [] ∧
    decode [0x0E000000] = .instr .nclip [] := by decide

theorem test_encode_pushx :
    encode (.pushx 0xFFFFFFFFFFFF8000 98304 0xFFFFFFFFFFFFFFFB 0xFFFF0001) =
      [0x0C000000, 0xFFFF8000, 0xFFFFFFFF, 0x00018000, 0, 0xFFFFFFFB, 0xFFFFFFFF, 0xFFFF0001] := by decide

theorem test_encode_rdata : encode (.rdata 14 8 0x12345678 0x00020001) = [0x050E0800, 0x12345678, 0x00020001] := by
  decide

/-- The reserved list of 95_test_vectors.md, each refused by its name. -/
theorem test_decode_reserved :
    [0x00000000, 0x0F000000, 0xFF000000, 0x01000001, 0x020E0100, 0x02200000, 0x050E2800, 0x050E0801, 0x090E0E00,
      0x0A0E0E00, 0x0E000100].map (fun h => decode [h, 0, 0, 0, 0, 0, 0, 0, 0]) =
    [.reserved .undefinedOp, .reserved .undefinedOp, .reserved .undefinedOp, .reserved .unusedF, .reserved .unusedRb,
      .reserved .nonzeroZ1, .reserved .nonzeroZ2, .reserved .unusedF, .reserved .unusedRa, .reserved .unusedRb,
      .reserved .unusedRb] := by decide

theorem test_decode_incomplete : decode [] = .incomplete ∧ decode [0x0D000000, 0, 1] = .incomplete := by decide

theorem test_decode_table_word :
    decodeTableWord 32 0x051F1F00 = some (.rdata 31 31 0 0) ∧ decodeTableWord 64 0x0002000104050000 =
      some (.val .data 5 0x00020001) ∧ decodeTableWord 32 0x0F000000 = none := by decide

/-! ### The step -/

theorem test_step_runs_fetched_word :
    (afterStep ((withSlot .data 14 src).withFetchWord 32 0x020E0000)).out = [.resSv src] ∧
      (afterStep ((withSlot .data 14 src).withFetchWord 32 0x020E0000)).cmd = [] := by decide

theorem test_step_faults_on_reserved :
    faultOf { State.reset with cmd := [0x02200000] } = some (.reservedHeader .nonzeroZ1) := by decide

/-- R93: an incomplete packet executes nothing and stays. -/
theorem test_step_waits :
    afterStep { State.reset with cmd := [0x04050000] } = { State.reset with cmd := [0x04050000] } := by decide

/-- R210: while reset is asserted a whole packet on CMD is not executed. -/
theorem test_step_reset :
    afterStep { withSlot .ctrl 3 src with seq := 7, cmd := [0x0E000000], resetIn := true } =
      { State.reset with resetIn := true } := by decide

/-! ### Store commands -/

theorem test_A8_init_keeps_seq :
    (after .init { withSlot .ctrl 31 src with seq := 7 }).slot .ctrl 31 = ShadowValue.zero ∧
      (after .init { withSlot .ctrl 31 src with seq := 7 }).seq = 7 := by decide

theorem test_A4_srd_words :
    (after (.srd .data 14) (withSlot .data 14 src)).out.map Event.words =
      [[0x3FC00000, 0x40100000, 0x3F800000, 0x00020001, 0x00000007, 0x00000000]] := by decide

theorem test_A3_A5_swr_no_shift_no_sink :
    (after (.swr .data 14 src) State.reset).slot .data 14 = src ∧
      (after (.swr .data 14 src) State.reset).slot .data 15 = ShadowValue.zero ∧
      (after (.swr .data 31 src) State.reset).slot .data 31 = src := by decide

theorem test_A6_A9_swr_index15 :
    (after (.swr .data 15 src) State.reset).slot .data 14 = ShadowValue.zero ∧
      (after (.swr .ctrl 15 src) State.reset).slot .ctrl 15 = src ∧
      (after (.swr .ctrl 15 src) State.reset).slot .data 15 = ShadowValue.zero := by decide

/-! ### Validate -/

theorem test_degrade_table :
    degrade 0xFFFF0003 = ⟨0x40400000, 0xBF800000, 0, 0xFFFF0003, 0, 0⟩ ∧
    degrade 0x80007FFF = ⟨0x46FFFE00, 0xC7000000, 0, 0x80007FFF, 0, 0⟩ ∧
    degrade 0x00000155 = ⟨0x43AA8000, 0, 0, 0x00000155, 0, 0⟩ := by decide +kernel

theorem test_B2_val_degrades :
    (after (.val .data 5 0xFFFF0003)
      (withSlot .data 5 ⟨0x3FA00000, 0x40200000, 0x40400000, 0x00020001, 0b111, 4⟩)).slot .data 5 =
      ⟨0x40400000, 0xBF800000, 0, 0xFFFF0003, 0, 0⟩ := by decide +kernel

theorem test_B7_val_matching_raw_keeps_clear_flags :
    (after (.val .data 5 1) (withSlot .data 5 ⟨0x40E00000, 0x40E00000, 0x40E00000, 1, 0, 2⟩)).slot .data 5 =
      ⟨0x40E00000, 0x40E00000, 0x40E00000, 1, 0, 2⟩ := by decide +kernel

/-! ### FIFO -/

theorem test_F1_pushf :
    let t := after (.pushf 0x3FC00000 0x40100000 0x40E00000 0x00020001) (withMode false true)
    t.slot .data 14 = src ∧ t.slot .data 15 = src ∧ t.slot .data 13 = ShadowValue.zero ∧ t.seq = 1 ∧
      t.out = [.vCache 1 2 src] := by decide +kernel

/-- F4 and F3: patterns kept bit for bit, true z under TDC, the counter wraps; the mode sampled is the coming one. -/
theorem test_F3_F4_pushf :
    let t := after (.pushf 0x7FA00000 0x80000000 0xFF800000 0)
      { withMode false true with seq := 0xFFFFFFFF, modeIn := [⟨true, false⟩] }
    t.slot .data 14 = ⟨0x7FA00000, 0x80000000, 0xFF800000, 0, 0b111, 0xFFFFFFFF⟩ ∧ t.seq = 0 ∧ t.out = [.vEmpty] ∧
      t.mode = ⟨true, false⟩ ∧ t.modeIn = [] := by decide +kernel

theorem test_F6_pushx :
    let t := after (.pushx (-32768) 98304 (-5) 0xFFFF0001) (withMode true true)
    t.slot .data 14 = ⟨0xBF000000, 0x3FC00000, 0xC0A00000, 0xFFFF0001, 0b111, 0⟩ ∧
      t.out = [.vCache 0x0001 0xFFFF (t.slot .data 14)] := by decide +kernel

/-- The conversion corners of 95_test_vectors.md (PUSHX): x16 and what x receives. -/
theorem test_pushx_conversion_corners :
    [(0, 0x00000000), (1, 0x37800000), (0xFFFFFFFFFFFFFFFF, 0xB7800000), (0x10000, 0x3F800000), (0x18000, 0x3FC00000),
      (0xFFFFFFFFFFFF8000, 0xBF000000), (0x1000001, 0x43800000), (0x1000003, 0x43800002), (0x2000003, 0x44000001),
      (0x123456789, 0x4791A2B4), (0x7FFFFF8000000000, 0x56FFFFFF), (0x7FFFFFFFFFFFFFFF, 0x57000000),
      (0x8000000000000000, 0xD7000000)].all (fun (p : DWord × Word) => fixedToF p.1 == p.2) = true := by decide +kernel

/-! ### Near clip -/

theorem test_V3_nclipv_no_short_circuit :
    let t := after (.nclipv 5 1 0x00010001) p1
    t.slot .data 12 = ⟨0x40A00000, 0, 0, 5, 0, 0⟩ ∧
      t.slot .data 14 = ⟨0x3F800000, 0x3F800000, 0, 0x00010001, 0, 0⟩ ∧ t.out = [.resWord 0] := by decide +kernel

theorem test_V6_V7_nclipv_zv_takes_no_part :
    (after (.nclipv 0 1 0x00010000) (p1.writeSlot .data 13 ⟨0x3F800000, 0, 0x3F800000, 1, 0b100, 1⟩)).out =
      [.resWord 0] ∧
    (after (.nclipv 0 1 0x00010000) (p1.writeSlot .data 13 ⟨0x3F800000, 0, 0x3F800000, 1, 0b011, 1⟩)).out =
      [.resWord 1] := by decide +kernel

/-- Vectors N1 to N9: (0,0), then two vertices, and NCLIP's word. -/
theorem test_N1_to_N9_nclip_boundaries :
    [((0x3F800000, 0), (0, 0x3F800000), 0x3F800000), ((0x3F800000, 0), (0, 0x3F000000), 0x3FC00000),
      ((0, 0x3F000000), (0x3F800000, 0), 0xBFC00000), ((0, 0x3E800000), (0x3F800000, 0), 0xBFA00000),
      ((0x3F800000, 0), (0, 0x3D800000), 0x3D800000), ((0x3F800000, 0), (0, 0x3DCCCCCD), 0x3DCCCCCD),
      ((0x3F800000, 0), (0, 0x3DCCCCCE), 0x3F8CCCCD), ((0x3F800000, 0), (0, 0x3F7FFFFF), 0x40000000),
      ((0, 0x3F800000), (0x3F800000, 0), 0xBF800000)].all
      (fun (p : (Word × Word) × (Word × Word) × Word) =>
        (fifo 0 0 p.1.1 p.1.2 p.2.1.1 p.2.1.2 0 0 0).nclipResult == p.2.2) = true := by decide +kernel

/-- Vectors N10, N12 and N14 to N17: a general position, a subnormal, overflow, invalid, a NaN operand. -/
theorem test_N10_to_N17_nclip_numerics :
    (fifo 0 0 0x40000000 0 0 0x40400000 0 0 0).nclipResult = 0x40C00000 ∧
    (fifo 0x41240000 0x41A40000 0x41F60000 0x41A40000 0x41240000 0x41A44000 0 0 0).nclipResult = 0x3FD20000 ∧
    (fifo 0 0 0x00000001 0 0 0x3F800000 0 0 0).nclipResult = 0x00000001 ∧
    (fifo 0 0 0x7F61B1E6 0 0 0x7F61B1E6 0 0 0).nclipResult = 0x7F800000 ∧
    (fifo 0x7F800000 0 0x3F800000 0 0 0x3F800000 0 0 0).nclipResult = 0x7FC00000 ∧
    (fifo 0x7FA00000 0x3F800000 0x3F800000 0 0 0x3F800000 0 0 0).nclipResult = 0x7FC00000 := by decide +kernel

/-! ### Transfers -/

/-- Program P4, last command, for both values of HEAD_REDERIVE_ON_READ. -/
theorem test_P4_rdata_head :
    let s := (withSlot .data 14 ⟨0x40800000, 0x40A00000, 0, 0x00050004, 0, 0⟩).writeSlot .data 15 src
    (match execRdataWith true 15 2 0x00020001 0x00020001 s with
      | .next t => t.out
      | _ => []) = [.host 2 ⟨0x3F800000, 0x40000000, 0, 0x00020001, 0, 0⟩] ∧
    (match execRdataWith false 15 2 0x00020001 0x00020001 s with
      | .next t => t.out
      | _ => []) = [.host 2 src] := by decide +kernel

theorem test_T9_T10_rdata :
    (after (.rdata 14 8 0x12345678 0x00020001) (withSlot .data 14 src)).out =
      [.host 8 ⟨0x3FC00000, 0x40100000, 0x3F800000, 0x12345678, 0b111, 0⟩] ∧
    (after (.rdata 14 8 0x00050004 0x00050004) (withSlot .data 14 src)).slot .data 14 =
      ⟨0x40800000, 0x40A00000, 0, 0x00050004, 0, 0⟩ := by decide +kernel

theorem test_T3_T4_wdata :
    (after (.wdata 8 6 0xAAAA5555 0x00030007 src) State.reset).slot .data 6 =
      ⟨0x40E00000, 0x40400000, 0, 0xAAAA5555, 0, 0⟩ ∧
    (after (.wdata 8 6 0xAAAA5555 0x00030007 src) State.reset).out =
      [.host 8 ⟨0x40E00000, 0x40400000, 0, 0x00030007, 0, 0⟩] ∧
    (after (.wdata 8 31 0 0x00020001 src) State.reset).slot .data 31 = ShadowValue.zero ∧
    (after (.wdata 8 31 0 0x00020001 src) State.reset).out = [.host 8 src] := by decide +kernel

theorem test_T6_T7_wdata :
    (after (.wdata 8 15 0x0000BEEF 0x00020001 src) State.reset).slot .data 14 = src ∧
    (after (.wdata 8 15 0x0000BEEF 0x00020001 src) State.reset).slot .data 15 = src ∧
    (after (.wdata 8 15 0x0000BEEF 0x00020001 src) State.reset).seq = 0 ∧
    (after (.wdata 8 14 0x00020001 0x00020001 src) State.reset).slot .data 15 = ShadowValue.zero := by decide +kernel

theorem test_T11_rctrl :
    (after (.rctrl 3 4 0x00000155 0x00000155) State.reset).slot .ctrl 3 = ⟨0x43AA8000, 0, 0, 0x00000155, 0, 0⟩ ∧
    (after (.rctrl 3 4 0x00000155 0x00000155) State.reset).out = [.host 4 ⟨0x43AA8000, 0, 0, 0x00000155, 0, 0⟩] := by
  decide +kernel

theorem test_T12_T13_wctrl :
    (after (.wctrl 4 31 0x80000000 0x80000000 ⟨0x3F000000, 0x3E800000, 0, 0x80000000, 0b011, 3⟩) State.reset).slot
      .ctrl 31 = ⟨0x3F000000, 0x3E800000, 0, 0x80000000, 0b011, 3⟩ ∧
    (after (.wctrl 4 15 0x00020001 0x00020001 src) State.reset).slot .ctrl 15 = src ∧
    (after (.wctrl 4 15 0x00020001 0x00020001 src) State.reset).slot .data 15 = ShadowValue.zero := by decide +kernel

/-- T20: a collaborator that breaks its contract; raw is repaired at a plain index and kept on a push. -/
theorem test_T20_ldmem :
    let s := { State.reset with vcmIn := [⟨0x41100000, 0x41100000, 0x41100000, 0x00000009, 0xFFFFFFFF, 1⟩] }
    (after (.ldmem 3 4 0x00020001) s).slot .data 3 = ⟨0x41100000, 0x41100000, 0x41100000, 0x00020001, 0b111, 1⟩ ∧
    (after (.ldmem 15 4 0x00020001) s).slot .data 14 = ⟨0x41100000, 0x41100000, 0x41100000, 0x00000009, 0b111, 1⟩ ∧
    (after (.ldmem 3 4 0x00020001) s).out = [.mVcm 4 0x00020001] ∧ (after (.ldmem 3 4 0x00020001) s).vcmIn = [] := by
  decide +kernel

/-- R55: without an answer the request is sent and stays outstanding. -/
theorem test_ldmem_waits :
    (after (.ldmem 31 4 9) State.reset).out = [.mVcm 4 9] ∧
      (after (.ldmem 31 4 9) State.reset).vcmPending = some ⟨31, 4, 9⟩ := by decide +kernel

theorem test_T15_stmem :
    (after (.stmem 14 0x1F800010 0x00020002) (withSlot .data 14 src)).out =
      [.mWr ⟨0x40000000, 0x40000000, 0, 0x00020002, 0, 0⟩ 0x1F800010] ∧
    (after (.stmem 14 0x1F800010 0x00020002) (withSlot .data 14 src)).slot .data 14 =
      ⟨0x40000000, 0x40000000, 0, 0x00020002, 0, 0⟩ := by decide +kernel

/-- T16 to T18: the reference environment's answers. -/
theorem test_T16_to_T18_refenv :
    (RefEnv.start.observe (.mWr src 0x1F800010)).answer 0x1F800010 0x00020001 = src ∧
    (RefEnv.start.observe (.mWr src 0x1F800010)).answer 0x1F800010 0x00020002 =
      ⟨0x40000000, 0x40000000, 0, 0x00020002, 0, 0⟩ ∧
    RefEnv.start.answer 4 0x00020001 = ⟨0x3F800000, 0x40000000, 0, 0x00020001, 0, 0⟩ := by decide +kernel

/-- Program P2, its last two transfers with the host's own slot as payload: HS[8] = src is sent, then validated. -/
theorem test_P2_host_sends_its_slot :
    let e := RefEnv.start.observe (.host 8 src)
    e.sendWdata 8 6 0xAAAA5555 0x00030007 = .wdata 8 6 0xAAAA5555 0x00030007 src ∧
      e.sendWctrl 8 6 0xAAAA5555 0x00030007 = .wctrl 8 6 0xAAAA5555 0x00030007 src := by decide

/-- T16 on the bench: the store's shadow data is asked for and answered; T18's address has none. -/
theorem test_T16_T18_bench_answers :
    (match ((Bench.start.serve (.mWr src 0x1F800010)).send (.ldmem 14 0x1F800010 0x00020001)).step with
      | .next b => b.block.vcmIn
      | _ => []) = [svToWire src] ∧
    (match (Bench.start.send (.ldmem 3 0x00000004 0x00020001)).step with
      | .next b => b.block.vcmIn
      | _ => []) = [svToWire ⟨0x3F800000, 0x40000000, 0, 0x00020001, 0, 0⟩] := by decide +kernel

/-- R151's signed zeros and R153's comparison of them. -/
theorem test_signed_zeros :
    fadd 0x00000000 0x80000000 = 0x00000000 ∧ fsub 0x3F800000 0x3F800000 = 0x00000000 ∧
      fmul 0x80000000 0x3F800000 = 0x80000000 ∧ flt 0x80000000 0x00000000 = false := by decide +kernel

/-! ### Witnesses: for each statement with hypotheses, a state and operands that meet them together -/

theorem witness_DecodeEncodeRoundTrip : (Instr.wdata 31 15 0xFFFFFFFF 0 src).wellFormed = true := by decide

/-- Bits 31:3 of the flags word are set, so the packet is not the encoding word for word. -/
theorem witness_DecodedPacketIsEncoding :
    decode [0x030E0000, 0, 0, 0, 0, 0xFFFFFFF8, 0, 5] = .instr (.swr .data 14 ShadowValue.zero) [5] := by decide

theorem witness_AtMostOneRowFits :
    (⟨.srd, 0x02000000, 0xFFE0FFFE, 1⟩ : OpRow) ∈ opTable ∧
      (⟨.srd, 0x02000000, 0xFFE0FFFE, 1⟩ : OpRow).selects 0x021F0001 = true := by decide

/-- Each reason is reached. -/
theorem witness_ReservedReasonIsADefect :
    [0x0F000000, 0x02200000, 0x05002000, 0x02000080, 0x09010000, 0x0A000100, 0x05000001].map
      (fun w => ((headerFields w).wellFormed, whyReserved w)) =
    [(false, .undefinedOp), (false, .nonzeroZ1), (false, .nonzeroZ2), (false, .nonzeroZ3), (false, .unusedRa),
      (false, .unusedRb), (false, .unusedF)] := by decide

theorem witness_StepRunsDecodedCommand :
    let s := { State.reset with cmd := [0x021F0001, 7] }
    s.resetIn = false ∧ s.vcmPending = none ∧ decode s.cmd = .instr (.srd .ctrl 31) [7] := by decide

theorem witness_StepFaultsOnlyOnReservedHeader :
    let s := { State.reset with cmd := [0x00000000, 7] }
    s.resetIn = false ∧ s.vcmPending = none ∧ s.cmd = 0x00000000 :: [7] ∧
      (headerFields 0x00000000).wellFormed = false := by decide

/-- An empty stream and a packet that lacks its last word, reset released and asserted. -/
theorem witness_IncompletePacketWaits :
    let i := Instr.wdata 8 5 0x0000BEEF 0x00020001 src
    (0 < (encode i).length ∧ State.reset.cmd = (encode i).take 0) ∧
      (8 < (encode i).length ∧ (encode i).take 8 ≠ encode i ∧
        ({ State.reset with cmd := (encode i).take 8 }).vcmPending = none ∧
        ({ State.reset with cmd := (encode i).take 8 }).resetIn = false ∧
        ({ State.reset with cmd := (encode i).take 8, resetIn := true }).resetIn = true) := by decide

theorem witness_StreamRunsCommandsInOrder :
    let s := { State.reset with vcmIn := [svToWire src] }
    s.resetIn = false ∧ s.vcmPending = none ∧
      [Instr.stmem 14 4 0x00020001, .ldmem 3 4 0x00020001, .nclip].countP takesAnswer ≤ s.vcmIn.length := by decide

theorem witness_HardwareResetStep :
    let s := { withSlot .ctrl 3 src with resetIn := true, vcmPending := some ⟨3, 4, 9⟩ }
    s.resetIn = true ∧ s.slot .ctrl 3 = src := by decide

/-- A waiting request and a push, each from a state that has the invariant and is not the reset state. -/
theorem witness_StepKeepsCountAndRequest_waiting :
    let s := { State.reset with seq := 1, out := [.vEmpty, .mVcm 4 9], vcmPending := some ⟨3, 4, 9⟩ }
    Inv s ∧ step s = .next s := by
  refine ⟨⟨rfl, fun r h => ?_⟩, rfl⟩
  cases h
  rfl

theorem witness_StepKeepsCountAndRequest_push :
    let s := { State.reset with seq := 1, out := [.vEmpty], cmd := [0x0B000000, 0, 0, 0, 0] }
    Inv s ∧ ∃ t, step s = .next t ∧ t.seq = 2 := by
  refine ⟨⟨rfl, fun r h => ?_⟩, _, rfl, rfl⟩
  cases h

theorem witness_ValidateLaws :
    src.raw ≠ 0x00020000 ∧ src.raw = 0x00020001 ∧ ShadowValue.zero.flags = 0b000 := by decide

/-- The three classes and the indices beside their bounds. -/
theorem witness_RegWritten :
    ((15 : RegIdx) = 15) ∧ ((31 : RegIdx) = 31) ∧
      [0, 11, 12, 14, 16, 30].all (fun (i : RegIdx) => decide (i ≠ 15 ∧ i ≠ 31)) = true ∧ (15 : RegIdx) ≠ 31 := by
  decide

/-- The largest exact operand, and one past it that rounds. -/
theorem witness_FixedPointConversionRoundsOnce :
    (0xFFFFFF : DWord).toInt ≠ 0 ∧ (0xFFFFFF : DWord).toInt.natAbs < 2 ^ 24 ∧
      fval (fscale16 (i2f (0xFFFFFF : DWord).toInt)) * 2 ^ 16 = (0xFFFFFF : DWord).toInt * 2 ^ 149 ∧
      fval (fscale16 (i2f (0x1000001 : DWord).toInt)) * 2 ^ 16 ≠ (0x1000001 : DWord).toInt * 2 ^ 149 := by
  decide +kernel

/-- Half the least subnormal is a tie; the first magnitude that overflows, and the one before it. -/
theorem witness_RoundingIsNearestEven :
    (roundMag (2 ^ 148) = 0 ∧ (1 : Nat) < infMag ∧ (1 : Nat) ≠ 0 ∧
      ((fmag (BitVec.ofNat 32 1) : Int) * 2 ^ 149 - (2 ^ 148 : Nat)).natAbs =
        ((fmag (BitVec.ofNat 32 0) : Int) * 2 ^ 149 - (2 ^ 148 : Nat)).natAbs) ∧
    roundMag ((2 ^ 25 - 1) * 2 ^ 401) = infMag ∧ roundMag ((2 ^ 25 - 1) * 2 ^ 401 - 1) = infMag - 1 := by
  decide +kernel

/-- 1 + 2 = 3; 1 - 1 = 0; the least normal times a half is a subnormal. -/
theorem witness_FloatOpsExactWhenRepresentable :
    [0x3F800000, 0x40000000, 0x40400000, 0, 0x00800000, 0x3F000000, 0x00400000].all isFinite = true ∧
      fval 0x3F800000 + fval 0x40000000 = fval 0x40400000 ∧ fval 0x3F800000 - fval 0x3F800000 = fval 0 ∧
      fval 0x00800000 * fval 0x3F000000 = fval 0x00400000 * 2 ^ 149 := by decide +kernel

/-- A NaN operand; inf - inf and inf * 0 with none. -/
theorem witness_NanResultsAreCanonical :
    isNaN 0x7F800001 = true ∧ isNaN (fadd 0x7F800000 0xFF800000) = true ∧
      isNaN (fsub 0x7F800000 0x7F800000) = true ∧ isNaN (fmul 0x7F800000 0) = true := by decide +kernel

/-- Both bounds are met; the next integer is not exact. -/
theorem witness_SmallIntegersConvertExactly :
    ((2 : Int) ^ 24).natAbs ≤ 2 ^ 24 ∧ (-(2 : Int) ^ 24).natAbs ≤ 2 ^ 24 ∧
      fval (i2f (2 ^ 24 + 1)) ≠ (2 ^ 24 + 1) * 2 ^ 149 := by decide +kernel

theorem witness_NclipNeverInsideOpenInterval : isNaN 0x3DCCCCCE = false := by decide

/-- Degraded slots with coordinates at the bounds -1024 and 1023. -/
theorem witness_NclipOnDegradedIsIntegerArea :
    (∃ s : State, s.slot .data 12 = degrade 0x03FFFC00 ∧ s.slot .data 13 = degrade 0xFC0003FF ∧
      s.slot .data 14 = degrade 0xFC00FC00) ∧
    ∀ w ∈ [(0x03FFFC00 : Word), 0xFC0003FF, 0xFC00FC00],
      (-1024 ≤ (w.extractLsb' 0 16).toInt ∧ (w.extractLsb' 0 16).toInt ≤ 1023) ∧
        (-1024 ≤ (w.extractLsb' 16 16).toInt ∧ (w.extractLsb' 16 16).toInt ≤ 1023) :=
  ⟨⟨((State.reset.writeSlot .data 12 (degrade 0x03FFFC00)).writeSlot .data 13 (degrade 0xFC0003FF)).writeSlot .data 14
    (degrade 0xFC00FC00), by simp [slot_writeSlot], by simp [slot_writeSlot], by simp⟩, by
      simp only [List.forall_mem_cons]
      exact ⟨by decide, by decide, by decide, by simp⟩⟩

theorem witness_LdmemAnsweredWritesResponse :
    ({ State.reset with vcmIn := [svToWire src] }).vcmIn = svToWire src :: [] := rfl

theorem witness_LdmemUnansweredWaits : State.reset.vcmIn = [] ∧ State.reset.resetIn = false := by decide

theorem witness_LdmemLateAnswerSameResult :
    State.reset.vcmIn = [] ∧ State.reset.resetIn = false ∧ State.reset.vcmPending = none ∧
      exec (.ldmem 3 4 9) State.reset = .next (State.reset.requestVcm ⟨3, 4, 9⟩) := ⟨rfl, rfl, rfl, rfl⟩

theorem witness_RoundTripThroughRegister15 : src.raw = 0x00020001 := rfl

/-- The premise "exec answers a next state" of the whole-machine rules, for a push and for the other kinds of command
they single out; the slots beside a push's and NCLIPV's are out of their reach. -/
theorem witness_exec_next :
    exec (.pushf 1 2 3 4) State.reset = .next (State.reset.push 1 2 3 4) ∧
      exec .init State.reset = .next State.reset.zeroFiles ∧ pushes .init = false ∧ installsFlags .init = false ∧
      (∃ t, exec (.rdata 15 0 1 2) State.reset = .next t) ∧
      mayWrite (.pushf 1 2 3 4) .data 11 = false ∧ mayWrite (.pushf 1 2 3 4) .data 16 = false ∧
      mayWrite (.nclipv 1 2 3) .data 15 = false ∧ mayWrite (.wdata 0 31 0 0 src) .data 31 = false :=
  ⟨rfl, rfl, rfl, rfl, ⟨_, rfl⟩, rfl, rfl, rfl, rfl⟩

theorem witness_ReferenceEnvironmentKeepsContract : (4 : Word) ≠ 5 := by decide

theorem witness_StoreThenLoadRecoversShadow :
    ∃ t, exec (.stmem 14 0x1F800010 0x00020001) (withSlot .data 14 src) = .next t ∧ t.slot .data 14 = src :=
  ⟨_, rfl, rfl⟩

/-- All four ways to push and a command that leaves the FIFO alone; an LDMEM to 15 without an answer pushes nothing. -/
theorem witness_FifoHoldsLastThreePushes :
    (∀ i ∈ [Instr.pushf 1 2 3 4, .pushx 1 2 3 4, .wdata 8 15 0 0x00020001 src, .ldmem 15 4 0x00020001, .nclip,
      .val .data 11 5, .val .data 15 5, .swr .ctrl 12 src], keepsFifoOrder i) ∧
    pushesOf [.wdata 8 15 0 0x00020001 src, .nclip, .ldmem 15 4 9, .ldmem 15 4 9]
      { State.reset with vcmIn := [svToWire ShadowValue.zero] } = [src, ShadowValue.zero] ∧
    pushOf (.pushf 1 2 3 4) (withMode true false) = some ⟨1, 2, 3, 4, 0b111, 0⟩ := by
  refine ⟨?_, by decide +kernel, by decide⟩
  simp only [List.forall_mem_cons]
  exact ⟨.inl rfl, .inl rfl, .inl rfl, .inl rfl, .inr (by decide), .inr (by decide), .inr (by decide),
    .inr (by decide), by simp⟩

/-- NCLIPV writes FIFO slots otherwise than by a push, and so does a transfer to index 14. -/
theorem witness_keepsFifoOrder_fails :
    ¬ keepsFifoOrder (.nclipv 0 0 0) ∧ ¬ keepsFifoOrder (.wdata 8 14 0 0 src) := by
  unfold keepsFifoOrder
  decide

theorem witness_ReferenceEnvironmentAnswersLdmem :
    let s := { State.reset with cmd := encode (.ldmem 31 4 9) ++ [7] }
    s.resetIn = false ∧ s.vcmPending = none ∧ s.vcmIn = [] ∧ s.cmd = encode (.ldmem 31 4 9) ++ [7] := by decide

/-- Each clause: infinities, the overflow midpoint itself (max + half a spacing), and zero sums. -/
theorem witness_InfinitiesAndSignedZeros :
    isInf 0xFF800000 = true ∧ isFinite 0x7F7FFFFF = true ∧ isNaN 0x3F800000 = false ∧ isZero 0x3F800000 = false ∧
      (2 ^ 25 - 1) * 2 ^ 252 ≤ (fval 0x7F7FFFFF + fval 0x73000000).natAbs ∧
      (fval 0x7F7FFFFF + fval 0x72FFFFFF).natAbs < (2 ^ 25 - 1) * 2 ^ 252 ∧
      (2 ^ 25 - 1) * 2 ^ 252 ≤ (fval 0xFF7FFFFF - fval 0x73000000).natAbs ∧
      (2 ^ 25 - 1) * 2 ^ 401 ≤ (fval 0x7F7FFFFF * fval 0x3F800001).natAbs ∧
      fval 0x80000000 + fval 0x80000000 = 0 ∧ fval 0x80000000 - fval 0x00000000 = 0 ∧
      isNaN (fmul 0x3F800000 0xBF800000) = false := by decide +kernel

theorem witness_ComparisonAndAbsoluteValue :
    isFinite 0x80000000 = true ∧ isFinite 0x7F7FFFFF = true ∧ isInf 0x7F800000 = true ∧ isInf 0xFF800000 = true := by
  decide

/-- An inexact sum, difference and product of finite operands: the second part of FloatOpsExactWhenRepresentable. -/
theorem witness_FloatOpsExactWhenRepresentable_inexact :
    isFinite 0x3F800000 = true ∧ isFinite 0x33800001 = true ∧
      fval 0x3F800000 + fval 0x33800001 ≠ 0 ∧ fval 0x3F800000 - fval 0x33800001 ≠ 0 ∧
      fval (fadd 0x3F800000 0x33800001) ≠ fval 0x3F800000 + fval 0x33800001 ∧
      fval (fmul 0x3F800001 0x3F800001) * 2 ^ 149 ≠ fval 0x3F800001 * fval 0x3F800001 := by decide +kernel

end Sys2Proof.Tests
end

section
/-! PROOFS. The register files, SEQ, the mode inputs and the invariant (spec/10_state.md): frame laws of the shared
operations, then what every command does to SEQ, to the events and to the slots, then the statements. -/

namespace Sys2Proof.Machine

/-! ### Frame laws of the shared operations -/

@[simp] theorem rederiveHead_seq (s : State) (b : Bool) (i : RegIdx) : (s.rederiveHead b i).seq = s.seq :=
  (rederiveHead_frame s b i).2.1

@[simp] theorem rederiveHead_vcmPending (s : State) (b : Bool) (i : RegIdx) :
    (s.rederiveHead b i).vcmPending = s.vcmPending := by
  obtain ⟨_, _, _, hp, _⟩ := rederiveHead_frame s b i
  exact hp

@[simp] theorem rederiveHead_out (s : State) (b : Bool) (i : RegIdx) : (s.rederiveHead b i).out = s.out := by
  obtain ⟨_, _, _, _, ho, _⟩ := rederiveHead_frame s b i
  exact ho

@[simp] theorem readTransfer_seq (s : State) (f : FileSel) (i h : RegIdx) (rt rd : Word) :
    (s.readTransfer f i h rt rd).seq = s.seq := rfl

@[simp] theorem readTransfer_vcmPending (s : State) (f : FileSel) (i h : RegIdx) (rt rd : Word) :
    (s.readTransfer f i h rt rd).vcmPending = s.vcmPending := rfl

@[simp] theorem readTransfer_out (s : State) (f : FileSel) (i h : RegIdx) (rt rd : Word) :
    (s.readTransfer f i h rt rd).out = s.out ++ [.host h (withRaw (validate (s.slot f i) rd) rt)] := by
  simp [readTransfer_eq]

@[simp] theorem validateFifo_seq (s : State) (r0 r1 r2 : Word) : (s.validateFifo r0 r1 r2).seq = s.seq := rfl

@[simp] theorem validateFifo_vcmPending (s : State) (r0 r1 r2 : Word) :
    (s.validateFifo r0 r1 r2).vcmPending = s.vcmPending := rfl

@[simp] theorem validateFifo_out (s : State) (r0 r1 r2 : Word) : (s.validateFifo r0 r1 r2).out = s.out := rfl

@[simp] theorem push_seq (s : State) (x y z rp : Word) : (s.push x y z rp).seq = s.seq + 1 := rfl

@[simp] theorem push_vcmPending (s : State) (x y z rp : Word) : (s.push x y z rp).vcmPending = s.vcmPending := rfl

@[simp] theorem push_out (s : State) (x y z rp : Word) :
    (s.push x y z rp).out = s.out ++ [pushEvent s.sampledMode rp (pushedEntry s.sampledMode s.seq x y z rp)] := rfl

@[simp] theorem requestVcm_seq (s : State) (r : VcmRequest) : (s.requestVcm r).seq = s.seq := by
  cases hv : s.vcmIn with
  | nil => simp [requestVcm_waits hv]
  | cons a rest => simp [requestVcm_answered hv]

/-- The request is sent whether or not an answer is at hand (R54). -/
@[simp] theorem requestVcm_out (s : State) (r : VcmRequest) :
    (s.requestVcm r).out = s.out ++ [.mVcm r.address r.rawWord] := by
  cases hv : s.vcmIn with
  | nil => simp [requestVcm_waits hv]
  | cons a rest => simp [requestVcm_answered hv]

@[simp] theorem resumeVcm_seq (s : State) (r : VcmRequest) : (s.resumeVcm r).seq = s.seq := by
  cases hv : s.vcmIn with
  | nil => simp [resumeVcm_waits hv]
  | cons a rest => simp [resumeVcm_answered hv]

@[simp] theorem resumeVcm_out (s : State) (r : VcmRequest) : (s.resumeVcm r).out = s.out := by
  cases hv : s.vcmIn with
  | nil => simp [resumeVcm_waits hv]
  | cons a rest => simp [resumeVcm_answered hv]

/-! ### SEQ, the events and the outstanding request under every command -/

/-- Only a push by PUSHF's rule moves SEQ (R31, R138). -/
theorem exec_seq {i : Instr} {s t : State} (h : exec i s = .next t) :
    t.seq = if pushes i = true then s.seq + 1 else s.seq := by
  cases i <;> cases h <;> simp [pushes]

/-- Every command appends the events of its row, on their channels (R71, R84). -/
theorem exec_out {i : Instr} {s t : State} (h : exec i s = .next t) :
    ∃ es, t.out = s.out ++ es ∧ es.map Event.channel = channelsOf i := by
  cases i <;> cases h
  case init | swr | val => exact ⟨[], (List.append_nil _).symm, rfl⟩
  case srd | stmem | nclipv | nclip => exact ⟨[_], emit_out .., rfl⟩
  case rdata => exact ⟨[_], by rw [readTransfer_out, rederiveHead_out], rfl⟩
  case wdata => exact ⟨[_], by rw [regWrite_out, emit_out], rfl⟩
  case rctrl => exact ⟨[_], readTransfer_out .., rfl⟩
  case wctrl => exact ⟨[_], by rw [writeSlot_out, emit_out], rfl⟩
  case ldmem => exact ⟨[_], requestVcm_out .., rfl⟩
  case pushf | pushx => exact ⟨[_], push_out .., by simp [channelsOf]⟩

/-- A command leaves the outstanding request as it was, or sends its own last (R55, R176). -/
theorem exec_vcmPending {i : Instr} {s t : State} (h : exec i s = .next t) :
    t.vcmPending = s.vcmPending ∨
      ∃ r, t.vcmPending = some r ∧ t.out = s.out ++ [.mVcm r.address r.rawWord] := by
  cases i <;> cases h
  case ldmem ddst address rawWord =>
    cases hv : s.vcmIn with
    | nil => exact .inr ⟨⟨ddst, address, rawWord⟩, by simp [requestVcm_waits hv], requestVcm_out ..⟩
    | cons a rest => exact .inl (by simp [requestVcm_answered hv])
  all_goals exact .inl (by simp)

/-- The V channel carries one event of a push and none of any other command (R53, R84). -/
theorem count_V_channelsOf (i : Instr) : (channelsOf i).count .V = if pushes i = true then 1 else 0 := by
  cases i <;> rfl

/-! ### The invariant -/

theorem seqCountsPushes_congr {s t : State} (hs : SeqCountsPushes s) (hseq : t.seq = s.seq) (hout : t.out = s.out) :
    SeqCountsPushes t := by
  rw [SeqCountsPushes, hseq, hout]; exact hs

/-- SEQ and the V events move together under every command (R133). -/
theorem exec_keeps_seqCountsPushes {i : Instr} {s t : State} (hs : SeqCountsPushes s) (h : exec i s = .next t) :
    SeqCountsPushes t := by
  obtain ⟨es, hout, hch⟩ := exec_out h
  have hcount : es.countP (fun e => e.channel = .V) = if pushes i = true then 1 else 0 := by
    rw [← count_V_channelsOf, ← hch, List.count, List.countP_map]
    exact List.countP_congr fun e _ => by simp
  rw [SeqCountsPushes, exec_seq h, hout, List.countP_append, hcount, hs]
  split <;> simp [BitVec.ofNat_add]

/-- A command that starts with no request outstanding leaves one only as its last event (R55, R66). -/
theorem exec_requestIsLastEvent {i : Instr} {s t : State} (hs : s.vcmPending = none) (h : exec i s = .next t) :
    RequestIsLastEvent t := by
  intro r hr
  obtain hp | ⟨r', hp, hout⟩ := exec_vcmPending h
  · rw [hr, hs] at hp; cases hp
  · obtain rfl : r = r' := Option.some.inj (hr.symm.trans hp)
    rw [hout, List.getLast?_concat]

/-- An answer ends the request; without one the state waits as it was (R55). -/
theorem inv_resumeVcm {s : State} {r : VcmRequest} (hs : Inv s) : Inv (s.resumeVcm r) := by
  refine ⟨seqCountsPushes_congr hs.1 (resumeVcm_seq ..) (resumeVcm_out ..), ?_⟩
  cases hv : s.vcmIn with
  | nil => rw [resumeVcm_waits hv]; exact hs.2
  | cons a rest => intro r' hr'; simp [resumeVcm_answered hv] at hr'

/-- Nothing is pending and SEQ is zero after the hardware reset (R38, R210). -/
theorem inv_hardwareReset (s : State) : Inv s.hardwareReset := ⟨rfl, fun _ hr => by cases hr⟩

/-- Settles O17: the branches of a step by `step_cases`; a decoded command starts with no request outstanding. -/
theorem stepKeepsCountAndRequest : Obligations.StepKeepsCountAndRequest := by
  intro s t hs h
  obtain ⟨_, hstep⟩ | ⟨_, _, _, hstep⟩ | ⟨_, _, _, hstep⟩ | ⟨_, _, _, _, hstep⟩ |
      ⟨_, rest, _, hp, _, hstep⟩ := step_cases s <;> rw [hstep] at h
  · cases h; exact inv_hardwareReset s
  · cases h; exact inv_resumeVcm hs
  · cases h; exact hs
  · cases h
  · exact ⟨exec_keeps_seqCountsPushes (s := s.withCmd rest) hs.1 h,
      exec_requestIsLastEvent (s := s.withCmd rest) hp h⟩

/-- Settles O16: State.reset holds no event and no request. -/
theorem resetKeepsCountAndRequest : Obligations.ResetKeepsCountAndRequest := inv_hardwareReset State.reset

/-- Settles O48, by `exec_seq`. -/
theorem onlyPushesMoveSeq : Obligations.OnlyPushesMoveSeq := fun _ _ _ h => exec_seq h

/-- Settles O14: State.reset is its own hardware reset, whose slots `slot_hardwareReset` gives. -/
theorem resetStateIsZero : Obligations.ResetStateIsZero :=
  ⟨slot_hardwareReset State.reset, rfl, rfl, rfl, rfl⟩

/-! ### The slots a command may change -/

/-- A shift stays within D[12..15] (R130). -/
theorem slot_shift_of_not_fifo (s : State) (v : ShadowValue) {f : FileSel} {j : RegIdx}
    (h : ¬(f = .data ∧ 12 ≤ j.val ∧ j.val ≤ 15)) : (s.shift v).slot f j = s.slot f j := by
  rw [slot_shift]
  by_cases hf : f = .data
  · have hj (k : RegIdx) (hk : 12 ≤ k.val ∧ k.val ≤ 15) : j ≠ k := fun hjk => h ⟨hf, hjk ▸ hk⟩
    simp [hj sxyp (by decide), hj sxy2 (by decide), hj sxy1 (by decide), hj sxy0 (by decide)]
  · simp [hf]

/-- A register write stays within the data slots of its index class (R26, R131). -/
theorem slot_regWrite_of_not_regWrites (s : State) (i : RegIdx) (v : ShadowValue) (w : Word) {f : FileSel}
    {j : RegIdx} (h : ¬(f = .data ∧ regWrites i j = true)) : (s.regWrite i v w).slot f j = s.slot f j := by
  refine regWrite_cases (P := fun t => t.slot f j = s.slot f j) s i v w ?push ?discard ?plain
  case push =>
    rintro rfl
    exact slot_shift_of_not_fifo s v (by simpa [regWrites] using h)
  case discard => exact fun _ => rfl
  case plain =>
    intro h15 h31
    rw [slot_writeSlot, if_neg (by simpa [regWrites, h15, h31] using h)]

/-- A request writes, if anything, what the register write of its answer writes (R176). -/
theorem slot_requestVcm_of_not_regWrites (s : State) (r : VcmRequest) {f : FileSel} {j : RegIdx}
    (h : ¬(f = .data ∧ regWrites r.ddst j = true)) : (s.requestVcm r).slot f j = s.slot f j := by
  cases hv : s.vcmIn with
  | nil => rw [requestVcm_waits hv]; cases f <;> rfl
  | cons a rest =>
    rw [requestVcm_answered hv, slot_regWrite_of_not_regWrites _ _ _ _ h]
    cases f <;> rfl

@[simp] theorem slot_readTransfer (s : State) (f : FileSel) (i hd : RegIdx) (rt rd : Word) (g : FileSel)
    (j : RegIdx) : (s.readTransfer f i hd rt rd).slot g j = (s.validateSlot f i rd).slot g j := by
  rw [readTransfer_eq, slot_emit]

/-- The head re-derive touches D[15] under a read from 15 only (R171). -/
theorem slot_rederiveHead_of_ne (s : State) (b : Bool) {i : RegIdx} {f : FileSel} {j : RegIdx}
    (h : ¬(f = .data ∧ j = i)) : (s.rederiveHead b i).slot f j = s.slot f j := by
  rw [slot_rederiveHead, if_neg]
  rintro ⟨rfl, _, rfl, rfl⟩
  exact h ⟨rfl, rfl⟩

theorem slot_validateSlot_of_ne (s : State) (f : FileSel) (i : RegIdx) (w : Word) {g : FileSel} {j : RegIdx}
    (h : ¬(g = f ∧ j = i)) : (s.validateSlot f i w).slot g j = s.slot g j := by
  rw [slot_validateSlot, if_neg h]

/-- The three Validates of NCLIPV stay within D[12..14] (R156). -/
theorem slot_validateFifo_of_not_fifo (s : State) (r0 r1 r2 : Word) {f : FileSel} {j : RegIdx}
    (h : ¬(f = .data ∧ 12 ≤ j.val ∧ j.val ≤ 14)) : (s.validateFifo r0 r1 r2).slot f j = s.slot f j := by
  have hne (k : RegIdx) (hk : 12 ≤ k.val ∧ k.val ≤ 14) : ¬(f = .data ∧ j = k) :=
    fun ⟨hf, hj⟩ => h ⟨hf, hj ▸ hk⟩
  rw [State.validateFifo, slot_validateSlot_of_ne _ _ _ _ (hne sxy2 (by decide)),
    slot_validateSlot_of_ne _ _ _ _ (hne sxy1 (by decide)), slot_validateSlot_of_ne _ _ _ _ (hne sxy0 (by decide))]

/-- Settles O50: the frame law of each command's operation, at the row of `mayWrite`. -/
theorem slotsWrittenOnlyByTable : Obligations.SlotsWrittenOnlyByTable := by
  intro i s t f j h hw
  cases i <;> cases h <;>
    simp only [mayWrite, Bool.and_eq_false_imp, decide_eq_false_iff_not, decide_eq_true_eq, reduceCtorEq] at hw
  case srd | nclip => exact slot_emit ..
  case swr => rw [slot_writeSlot, if_neg hw]
  case val => exact slot_validateSlot_of_ne _ _ _ _ hw
  case rdata => rw [slot_readTransfer, slot_validateSlot_of_ne _ _ _ _ hw, slot_rederiveHead_of_ne _ _ hw]
  case wdata =>
    rw [slot_regWrite_of_not_regWrites _ _ _ _ (by simpa using hw), slot_emit]
  case rctrl => rw [slot_readTransfer, slot_validateSlot_of_ne _ _ _ _ hw]
  case wctrl => rw [slot_writeSlot, if_neg hw, slot_emit]
  case ldmem => exact slot_requestVcm_of_not_regWrites _ _ (by simpa using hw)
  case stmem => rw [slot_emit, slot_validateSlot_of_ne _ _ _ _ hw]
  case pushf | pushx => rw [slot_push, slot_shift_of_not_fifo _ _ hw]
  case nclipv => rw [slot_emit, slot_validateFifo_of_not_fifo _ _ _ _ hw]

/-! ### Flags -/

/-- A Validate keeps the flags or clears them (R124 (d)). -/
theorem flagsWithin_validate (v : ShadowValue) (w : Word) : FlagsWithin (validate v w).flags v.flags := by
  rw [validate_flags]
  split
  · exact flagsWithin_refl _
  · exact flagsWithin_none _

theorem flagsWithin_validateSlot (s : State) (f : FileSel) (i : RegIdx) (w : Word) (g : FileSel) (j : RegIdx) :
    FlagsWithin ((s.validateSlot f i w).slot g j).flags (s.slot g j).flags := by
  rw [slot_validateSlot]
  split
  · next h => obtain ⟨rfl, rfl⟩ := h; exact flagsWithin_validate _ _
  · exact flagsWithin_refl _

theorem flagsWithin_validateFifo (s : State) (r0 r1 r2 : Word) (g : FileSel) (j : RegIdx) :
    FlagsWithin ((s.validateFifo r0 r1 r2).slot g j).flags (s.slot g j).flags :=
  flagsWithin_trans (flagsWithin_validateSlot _ _ _ _ _ _)
    (flagsWithin_trans (flagsWithin_validateSlot _ _ _ _ _ _) (flagsWithin_validateSlot _ _ _ _ _ _))

theorem rederiveHead_of_ne (s : State) (b : Bool) {i : RegIdx} (h : i ≠ 15) : s.rederiveHead b i = s := by
  simp [State.rederiveHead, sxyp, h]

/-- A command outside R35's list keeps the flags of every slot or clears them. -/
theorem exec_flagsWithin {i : Instr} {s t : State} (f : FileSel) (j : RegIdx) (h : exec i s = .next t)
    (hi : installsFlags i = false) : FlagsWithin (t.slot f j).flags (s.slot f j).flags := by
  cases i <;> cases h <;> simp only [installsFlags, decide_eq_false_iff_not, reduceCtorEq] at hi
  case init => rw [slot_zeroFiles]; exact flagsWithin_none _
  case srd | nclip => rw [slot_emit]; exact flagsWithin_refl _
  case val => exact flagsWithin_validateSlot _ _ _ _ _ _
  case rdata => rw [rederiveHead_of_ne _ _ hi, slot_readTransfer]; exact flagsWithin_validateSlot _ _ _ _ _ _
  case rctrl => rw [slot_readTransfer]; exact flagsWithin_validateSlot _ _ _ _ _ _
  case stmem => rw [slot_emit]; exact flagsWithin_validateSlot _ _ _ _ _ _
  case nclipv => rw [slot_emit]; exact flagsWithin_validateFifo _ _ _ _ _ _

/-- After RDATA from 15 the head holds its own value or that of D[14], validated (R171, R172). -/
theorem slot_head_of_rdata (s : State) (b : Bool) (hd : RegIdx) (rt rd : Word) :
    ((s.rederiveHead b sxyp).readTransfer .data sxyp hd rt rd).slot .data sxyp =
      validate (s.slot .data (if b = true then sxy2 else sxyp)) rd := by
  cases b <;> simp [slot_rederiveHead]

/-- Settles O53: `exec_flagsWithin`, and `slot_head_of_rdata` for either value of the open parameter. -/
theorem flagsGrowOnlyByWholeWrites : Obligations.FlagsGrowOnlyByWholeWrites := by
  refine ⟨fun i s t f j => exec_flagsWithin f j, fun hd rt rd s t h => ⟨fun f j hne => ?_, ?_⟩⟩
  · exact slotsWrittenOnlyByTable _ s t f j h (by simpa [mayWrite] using hne)
  · cases h
    have hhead := slot_head_of_rdata s Config.headRederiveOnRead hd rt rd
    split at hhead
    · exact .inr (hhead ▸ flagsWithin_validate _ _)
    · exact .inl (hhead ▸ flagsWithin_validate _ _)

/-! ### The mode inputs -/

/-- `s` under other levels of the mode inputs (R33). -/
def State.withLevels (s : State) (m : Mode) (ms : List Mode) : State := { s with mode := m, modeIn := ms }

section

variable (s : State) (m : Mode) (ms : List Mode)

@[simp] theorem slot_withLevels (f : FileSel) (i : RegIdx) : (s.withLevels m ms).slot f i = s.slot f i := by
  cases f <;> rfl

@[simp] theorem zeroFiles_withLevels : (s.withLevels m ms).zeroFiles = s.zeroFiles.withLevels m ms := rfl

@[simp] theorem emit_withLevels (e : Event) : (s.withLevels m ms).emit e = (s.emit e).withLevels m ms := rfl

@[simp] theorem writeSlot_withLevels (f : FileSel) (i : RegIdx) (v : ShadowValue) :
    (s.withLevels m ms).writeSlot f i v = (s.writeSlot f i v).withLevels m ms := rfl

@[simp] theorem validateSlot_withLevels (f : FileSel) (i : RegIdx) (w : Word) :
    (s.withLevels m ms).validateSlot f i w = (s.validateSlot f i w).withLevels m ms := by
  simp [State.validateSlot]

@[simp] theorem validateFifo_withLevels (r0 r1 r2 : Word) :
    (s.withLevels m ms).validateFifo r0 r1 r2 = (s.validateFifo r0 r1 r2).withLevels m ms := by
  simp [State.validateFifo]

@[simp] theorem fifoXyv_withLevels : (s.withLevels m ms).fifoXyv = s.fifoXyv := by simp [State.fifoXyv]

@[simp] theorem nclipResult_withLevels : (s.withLevels m ms).nclipResult = s.nclipResult := by
  simp [State.nclipResult]

@[simp] theorem readTransfer_withLevels (f : FileSel) (i hd : RegIdx) (rt rd : Word) :
    (s.withLevels m ms).readTransfer f i hd rt rd = (s.readTransfer f i hd rt rd).withLevels m ms := by
  simp [readTransfer_eq]

@[simp] theorem rederiveHead_withLevels (b : Bool) (i : RegIdx) :
    (s.withLevels m ms).rederiveHead b i = (s.rederiveHead b i).withLevels m ms := by
  unfold State.rederiveHead
  split <;> rfl

@[simp] theorem regWrite_withLevels (i : RegIdx) (v : ShadowValue) (w : Word) :
    (s.withLevels m ms).regWrite i v w = (s.regWrite i v w).withLevels m ms := by
  unfold State.regWrite
  split <;> rfl

@[simp] theorem requestVcm_withLevels (r : VcmRequest) :
    (s.withLevels m ms).requestVcm r = (s.requestVcm r).withLevels m ms := by
  cases hv : s.vcmIn with
  | nil => rw [requestVcm_waits hv, requestVcm_waits (s := s.withLevels m ms) hv]; rfl
  | cons a rest =>
    rw [requestVcm_answered hv, requestVcm_answered (s := s.withLevels m ms) hv, ← regWrite_withLevels]; rfl

end

/-- A command that does not push commutes with a change of the mode levels, as each shared operation does (R33). -/
theorem exec_withLevels {i : Instr} {s t : State} (m : Mode) (ms : List Mode) (hi : pushes i = false)
    (h : exec i s = .next t) : exec i (s.withLevels m ms) = .next (t.withLevels m ms) := by
  cases i <;> cases h
  case pushf | pushx => simp [pushes] at hi
  case nclipv => rw [exec_nclipv, validateFifo_withLevels, fifoXyv_withLevels, emit_withLevels]
  all_goals simp

/-- Settles O52, by `exec_withLevels`. -/
theorem modeMattersToPushesOnly : Obligations.ModeMattersToPushesOnly := fun _ _ _ m ms => exec_withLevels m ms

/-! ### The two files do not interfere -/

/-- What a command reads of a state when only file `f` is known: its slots, SEQ and the inputs it takes. -/
structure AgreesOn (f : FileSel) (s u : State) : Prop where
  file : SameFile f s u
  seq : u.seq = s.seq
  mode : u.sampledMode = s.sampledMode
  vcmIn : u.vcmIn = s.vcmIn

theorem SameFile.writeSlot {f g : FileSel} {s u : State} {v w : ShadowValue} (h : SameFile f s u) (i : RegIdx)
    (hv : g = f → w = v) : SameFile f (s.writeSlot g i v) (u.writeSlot g i w) := by
  intro j
  rw [slot_writeSlot, slot_writeSlot]
  split
  · next hc => exact hv hc.1.symm
  · exact h j

theorem SameFile.emit {f : FileSel} {s u : State} (h : SameFile f s u) (e e' : Event) :
    SameFile f (s.emit e) (u.emit e') := fun j => by rw [slot_emit, slot_emit, h j]

theorem SameFile.validateSlot {f : FileSel} {s u : State} (h : SameFile f s u) (g : FileSel) (i : RegIdx)
    (w : Word) : SameFile f (s.validateSlot g i w) (u.validateSlot g i w) :=
  h.writeSlot i fun hg => by rw [hg, h i]

theorem SameFile.validateFifo {f : FileSel} {s u : State} (h : SameFile f s u) (r0 r1 r2 : Word) :
    SameFile f (s.validateFifo r0 r1 r2) (u.validateFifo r0 r1 r2) :=
  ((h.validateSlot _ _ _).validateSlot _ _ _).validateSlot _ _ _

theorem SameFile.shift {f : FileSel} {s u : State} (h : SameFile f s u) (v : ShadowValue) :
    SameFile f (s.shift v) (u.shift v) := by
  intro j
  rw [slot_shift, slot_shift, h j]
  cases f with
  | data => rw [h, h]
  | ctrl => simp

theorem SameFile.regWrite {f : FileSel} {s u : State} (h : SameFile f s u) (i : RegIdx) (v : ShadowValue)
    (w : Word) : SameFile f (s.regWrite i v w) (u.regWrite i v w) := by
  unfold State.regWrite
  split
  · exact h.shift v
  · exact h
  · exact h.writeSlot i fun _ => rfl

theorem SameFile.rederiveHead {f : FileSel} {s u : State} (h : SameFile f s u) (b : Bool) (i : RegIdx) :
    SameFile f (s.rederiveHead b i) (u.rederiveHead b i) := by
  unfold State.rederiveHead
  split
  · exact h.writeSlot _ fun hf => by rw [hf, h]
  · exact h

theorem SameFile.readTransfer {f : FileSel} {s u : State} (h : SameFile f s u) (g : FileSel) (i hd : RegIdx)
    (rt rd : Word) : SameFile f (s.readTransfer g i hd rt rd) (u.readTransfer g i hd rt rd) :=
  (h.validateSlot g i rd).emit _ _

/-- A pushed entry is made of the operands, SEQ and the mode alone, so it brings nothing from the other file. -/
theorem AgreesOn.push {f : FileSel} {s u : State} (h : AgreesOn f s u) (x y z rp : Word) :
    SameFile f (s.push x y z rp) (u.push x y z rp) := by
  intro j
  rw [slot_push, slot_push, h.mode, h.seq, h.file.shift _ j]

theorem AgreesOn.requestVcm {f : FileSel} {s u : State} (h : AgreesOn f s u) (r : VcmRequest) :
    SameFile f (s.requestVcm r) (u.requestVcm r) := by
  cases hv : s.vcmIn with
  | nil =>
    rw [requestVcm_waits hv, requestVcm_waits (h.vcmIn.trans hv)]
    cases f <;> exact h.file
  | cons a rest =>
    rw [requestVcm_answered hv, requestVcm_answered (h.vcmIn.trans hv)]
    refine SameFile.regWrite ?_ _ _ _
    cases f <;> exact h.file

/-- What a command leaves in one file and in SEQ depends on that file, SEQ and the inputs alone (R30). -/
theorem exec_agreesOn {i : Instr} {f : FileSel} {s u t : State} (hsu : AgreesOn f s u) (h : exec i s = .next t) :
    ∃ v, exec i u = .next v ∧ SameFile f t v ∧ v.seq = t.seq := by
  have hf := hsu.file
  suffices ∃ v, exec i u = .next v ∧ SameFile f t v by
    obtain ⟨v, hv, hfile⟩ := this
    exact ⟨v, hv, hfile, by rw [exec_seq hv, exec_seq h, hsu.seq]⟩
  cases i <;> cases h <;> refine ⟨_, rfl, ?_⟩
  case init => intro j; rw [slot_zeroFiles, slot_zeroFiles]
  case srd | nclip => exact hf.emit _ _
  case swr => exact hf.writeSlot _ fun _ => rfl
  case val => exact hf.validateSlot _ _ _
  case rdata => exact (hf.rederiveHead _ _).readTransfer _ _ _ _ _
  case wdata => exact (hf.emit _ _).regWrite _ _ _
  case rctrl => exact hf.readTransfer _ _ _ _ _
  case wctrl => exact (hf.emit _ _).writeSlot _ fun _ => rfl
  case ldmem => exact hsu.requestVcm _
  case stmem => exact (hf.validateSlot _ _ _).emit _ _
  case pushf | pushx => exact hsu.push _ _ _ _
  case nclipv => exact (hf.validateFifo _ _ _).emit _ _

/-- Settles O51: a state and its copy with the other file replaced agree on the file that was kept. -/
theorem filesDoNotInterfere : Obligations.FilesDoNotInterfere := by
  intro i s t file h
  constructor
  · obtain ⟨u, hu, hfile, hseq⟩ :=
      exec_agreesOn (f := .data) (s := s) (u := { s with c := file }) ⟨fun _ => rfl, rfl, rfl, rfl⟩ h
    exact ⟨u, hu, Vector.ext fun k hk => hfile ⟨k, hk⟩, hseq⟩
  · obtain ⟨u, hu, hfile, hseq⟩ :=
      exec_agreesOn (f := .ctrl) (s := s) (u := { s with d := file }) ⟨fun _ => rfl, rfl, rfl, rfl⟩ h
    exact ⟨u, hu, Vector.ext fun k hk => hfile ⟨k, hk⟩, hseq⟩

/-! ### SAVE and RESTORE -/

/-- `s` after a list of events, in their order (R71). -/
def State.emitAll (s : State) (es : List Event) : State := { s with out := s.out ++ es }

@[simp] theorem slot_emitAll (s : State) (es : List Event) (f : FileSel) (i : RegIdx) :
    (s.emitAll es).slot f i = s.slot f i := by cases f <;> rfl

theorem emitAll_emit (s : State) (e : Event) (es : List Event) : (s.emit e).emitAll es = s.emitAll (e :: es) := by
  simp [State.emit, State.emitAll]

/-- `f[i] <- g i` for every `i` of a list, in its order (R97). -/
def State.writeSlots (s : State) (f : FileSel) (g : RegIdx → ShadowValue) : List RegIdx → State
  | [] => s
  | i :: is => (s.writeSlot f i (g i)).writeSlots f g is

/-- A slot of the list holds its own value: a later write to the same slot stores the same value. -/
theorem slot_writeSlots (s : State) (f : FileSel) (g : RegIdx → ShadowValue) (is : List RegIdx) (k : FileSel)
    (j : RegIdx) : (s.writeSlots f g is).slot k j = if k = f ∧ j ∈ is then g j else s.slot k j := by
  induction is generalizing s with
  | nil => simp [State.writeSlots]
  | cons i is ih =>
    rw [State.writeSlots, ih, slot_writeSlot]
    by_cases hk : k = f <;> by_cases hj : j = i <;> simp [hk, hj]

/-- Slot writes leave SEQ, the events and the inputs alone. -/
theorem writeSlots_frame (s : State) (f : FileSel) (g : RegIdx → ShadowValue) (is : List RegIdx) :
    (s.writeSlots f g is).seq = s.seq ∧ (s.writeSlots f g is).out = s.out ∧ SameInputs s (s.writeSlots f g is) := by
  induction is generalizing s with
  | nil => exact ⟨rfl, rfl, rfl, rfl, rfl, rfl, rfl, rfl⟩
  | cons i is ih => exact ih (s.writeSlot f i (g i))

/-- A run of SRDs sends the slots as stored, then the rest of the list follows (R112). -/
theorem execAll_srd_append (f : FileSel) (is : List RegIdx) (js : List Instr) (s : State) :
    execAll (is.map (fun i => .srd f i) ++ js) s =
      execAll js (s.emitAll (is.map fun i => .resSv (s.slot f i))) := by
  induction is generalizing s with
  | nil => simp [State.emitAll]
  | cons i is ih =>
    calc execAll (is.map (fun i => .srd f i) ++ js) (s.emit (.resSv (s.slot f i)))
        = execAll js ((s.emit (.resSv (s.slot f i))).emitAll (is.map fun k => .resSv (s.slot f k))) := by
          simp only [ih, slot_emit]
      _ = _ := by rw [emitAll_emit, List.map_cons]

/-- A run of SWRs stores the values, then the rest of the list follows (R113). -/
theorem execAll_swr_append (f : FileSel) (g : RegIdx → ShadowValue) (is : List RegIdx) (js : List Instr) (s : State) :
    execAll (is.map (fun i => .swr f i (g i)) ++ js) s = execAll js (s.writeSlots f g is) := by
  induction is generalizing s with
  | nil => rfl
  | cons i is ih => exact ih (s.writeSlot f i (g i))

/-- SAVE sends every slot of D, then every slot of C (R97). -/
theorem execAll_saveCommands (s : State) :
    execAll saveCommands s =
      .next ((s.emitAll ((List.finRange 32).map fun i => .resSv (s.slot .data i))).emitAll
        ((List.finRange 32).map fun i => .resSv (s.slot .ctrl i))) := by
  rw [saveCommands, execAll_srd_append, ← List.append_nil (List.map _ _), execAll_srd_append]
  simp only [slot_emitAll, execAll]

/-- RESTORE stores every saved slot of D, then every one of C (R97). -/
theorem execAll_restoreCommands (s u : State) :
    execAll (restoreCommands s) u =
      .next ((u.writeSlots .data (s.slot .data) (List.finRange 32)).writeSlots .ctrl (s.slot .ctrl)
        (List.finRange 32)) := by
  rw [restoreCommands, execAll_swr_append, ← List.append_nil (List.map _ _), execAll_swr_append, execAll]

theorem sameInputs_trans {s t u : State} (h : SameInputs s t) (h' : SameInputs t u) : SameInputs s u := by
  obtain ⟨hc, hp, hm, hmi, hv, hr⟩ := h
  obtain ⟨hc', hp', hm', hmi', hv', hr'⟩ := h'
  exact ⟨hc'.trans hc, hp'.trans hp, hm'.trans hm, hmi'.trans hmi, hv'.trans hv, hr'.trans hr⟩

/-- Settles O21: the two runs end in the states that `execAll_saveCommands` and `execAll_restoreCommands` give. -/
theorem saveThenRestoreCarriesFiles : Obligations.SaveThenRestoreCarriesFiles := by
  refine ⟨fun s => ⟨_, execAll_saveCommands s, ?_, fun _ => by simp, fun _ => by simp, rfl,
      ⟨rfl, rfl, rfl, rfl, rfl, rfl⟩⟩,
    fun s u => ⟨_, execAll_restoreCommands s u, fun j => ?_, fun j => ?_, ?_⟩⟩
  · simp [State.emitAll]
  · simp [slot_writeSlots, List.mem_finRange]
  · simp [slot_writeSlots, List.mem_finRange]
  · obtain ⟨hseq, hout, hin⟩ := writeSlots_frame u .data (s.slot .data) (List.finRange 32)
    obtain ⟨hseq', hout', hin'⟩ :=
      writeSlots_frame (u.writeSlots .data (s.slot .data) (List.finRange 32)) .ctrl (s.slot .ctrl) (List.finRange 32)
    exact ⟨hseq'.trans hseq, hout'.trans hout, sameInputs_trans hin hin'⟩

end Sys2Proof.Machine
end

section
/-! PROOFS. The ports and the reference environment (spec/20_memory.md): the packets at the head of a CMD stream, the
frame of a command on the inputs it takes, the LDMEM that waits for its answer, the reference environment of R72; then
the statements. -/

namespace Sys2Proof.Machine

/-! ### The packet at the head of a stream -/

/-- An SV operand that begins the payload (R89). -/
theorem payloadSv_svWords (v : ShadowValue) : payloadSv (svWords v) 0 = v := svOfWire_svToWire v

/-- An SV operand after two words (R89). -/
theorem payloadSv_two_svWords (a b : Word) (v : ShadowValue) : payloadSv (a :: b :: svWords v) 2 = v :=
  svOfWire_svToWire v

/-- The header and the payload of a packet give its command back (R84, R87 to R90). -/
theorem assemble_encode (i : Instr) : assemble (opcodeOf i) (encodeHeader i) (encodePayload i) = i := by
  have hf (f : FileSel) : (if f.bit = 0#1 then FileSel.data else FileSel.ctrl) = f := fileOf_bit f
  cases i <;>
    simp [assemble, opcodeOf, encodePayload, raOf_eq, rbOf_eq, fileOf_eq, Instr.header, payloadSv_svWords,
      payloadSv_two_svWords, payloadI64, payloadWord, hf]

/-- A stream that begins with a command's packet decodes to that command, with the words after it left (R85). -/
theorem decode_encode_append (i : Instr) (rest : List Word) : decode (encode i ++ rest) = .instr i rest := by
  rw [encode, List.cons_append, decode_encodeHeader, if_neg (by simp), List.take_left, List.drop_left, assemble_encode]

/-! ### The step by its branches -/

theorem step_of_pending {s : State} {r : VcmRequest} (hr : s.resetIn = false) (hp : s.vcmPending = some r) :
    step s = .next (s.resumeVcm r) := by
  simp [step, hr, hp]

/-- The block waits while no answer comes, whatever stands on CMD (R55). -/
theorem step_waits {s : State} {r : VcmRequest} (hr : s.resetIn = false) (hp : s.vcmPending = some r)
    (hv : s.vcmIn = []) : step s = .next s := by
  rw [step_of_pending hr hp, resumeVcm_waits hv]

theorem step_of_instr {s : State} {i : Instr} {rest : List Word} (hr : s.resetIn = false) (hp : s.vcmPending = none)
    (hd : decode s.cmd = .instr i rest) : step s = exec i (s.withCmd rest) := by
  simp [step, hr, hp, hd]

/-- Settles O9, by `step_of_instr`. -/
theorem stepRunsDecodedCommand : Obligations.StepRunsDecodedCommand := fun _ _ _ => step_of_instr

/-! ### What a command does with the stream and the inputs -/

theorem exec_answers_next (i : Instr) (s : State) : ∃ t, exec i s = .next t := by
  cases i <;> exact ⟨_, rfl⟩

section

variable (s : State) (ws : List Word)

@[simp] theorem zeroFiles_withCmd : (s.withCmd ws).zeroFiles = s.zeroFiles.withCmd ws := rfl

@[simp] theorem emit_withCmd (e : Event) : (s.withCmd ws).emit e = (s.emit e).withCmd ws := rfl

@[simp] theorem writeSlot_withCmd (f : FileSel) (i : RegIdx) (v : ShadowValue) :
    (s.withCmd ws).writeSlot f i v = (s.writeSlot f i v).withCmd ws := rfl

@[simp] theorem validateSlot_withCmd (f : FileSel) (i : RegIdx) (w : Word) :
    (s.withCmd ws).validateSlot f i w = (s.validateSlot f i w).withCmd ws := by
  simp [State.validateSlot]

@[simp] theorem validateFifo_withCmd (r0 r1 r2 : Word) :
    (s.withCmd ws).validateFifo r0 r1 r2 = (s.validateFifo r0 r1 r2).withCmd ws := by
  simp [State.validateFifo]

@[simp] theorem fifoXyv_withCmd : (s.withCmd ws).fifoXyv = s.fifoXyv := by simp [State.fifoXyv]

@[simp] theorem nclipResult_withCmd : (s.withCmd ws).nclipResult = s.nclipResult := by simp [State.nclipResult]

@[simp] theorem push_withCmd (x y z rp : Word) : (s.withCmd ws).push x y z rp = (s.push x y z rp).withCmd ws := rfl

@[simp] theorem readTransfer_withCmd (f : FileSel) (i hd : RegIdx) (rt rd : Word) :
    (s.withCmd ws).readTransfer f i hd rt rd = (s.readTransfer f i hd rt rd).withCmd ws := by
  simp [readTransfer_eq]

@[simp] theorem rederiveHead_withCmd (b : Bool) (i : RegIdx) :
    (s.withCmd ws).rederiveHead b i = (s.rederiveHead b i).withCmd ws := by
  unfold State.rederiveHead
  split <;> rfl

@[simp] theorem regWrite_withCmd (i : RegIdx) (v : ShadowValue) (w : Word) :
    (s.withCmd ws).regWrite i v w = (s.regWrite i v w).withCmd ws := by
  unfold State.regWrite
  split <;> rfl

@[simp] theorem requestVcm_withCmd (r : VcmRequest) :
    (s.withCmd ws).requestVcm r = (s.requestVcm r).withCmd ws := by
  cases hv : s.vcmIn with
  | nil => rw [requestVcm_waits hv, requestVcm_waits (s := s.withCmd ws) hv]; rfl
  | cons a rest =>
    rw [requestVcm_answered hv, requestVcm_answered (s := s.withCmd ws) hv, ← regWrite_withCmd]; rfl

end

/-- A command neither reads nor moves the words behind it on CMD, as each shared operation does not (R60). -/
theorem exec_withCmd {i : Instr} {s t : State} (ws : List Word) (h : exec i s = .next t) :
    exec i (s.withCmd ws) = .next (t.withCmd ws) := by
  cases i <;> cases h
  case nclipv => rw [exec_nclipv, validateFifo_withCmd, fifoXyv_withCmd, emit_withCmd]
  all_goals simp

@[simp] theorem rederiveHead_vcmIn (s : State) (b : Bool) (i : RegIdx) : (s.rederiveHead b i).vcmIn = s.vcmIn := by
  obtain ⟨_, _, _, _, _, _, _, hv, _⟩ := rederiveHead_frame s b i
  exact hv

@[simp] theorem rederiveHead_resetIn (s : State) (b : Bool) (i : RegIdx) :
    (s.rederiveHead b i).resetIn = s.resetIn := by
  obtain ⟨_, _, _, _, _, _, _, _, hr⟩ := rederiveHead_frame s b i
  exact hr

/-- What a request does to the inputs: it takes the oldest answer at hand, if any (R54). -/
theorem requestVcm_frame (s : State) (r : VcmRequest) :
    (s.requestVcm r).cmd = s.cmd ∧ (s.requestVcm r).mode = s.mode ∧ (s.requestVcm r).modeIn = s.modeIn ∧
      (s.requestVcm r).vcmIn = s.vcmIn.tail ∧ (s.requestVcm r).resetIn = s.resetIn := by
  cases hv : s.vcmIn with
  | nil => simp [requestVcm_waits hv, hv]
  | cons a rest => simp [requestVcm_answered hv]

theorem requestVcm_vcmPending_of_answered {s : State} (hv : s.vcmIn ≠ []) (r : VcmRequest) :
    (s.requestVcm r).vcmPending = s.vcmPending := by
  obtain ⟨a, rest, hv⟩ := List.exists_cons_of_ne_nil hv
  simp [requestVcm_answered hv]

theorem exec_resetIn {i : Instr} {s t : State} (h : exec i s = .next t) : t.resetIn = s.resetIn := by
  cases i <;> cases h
  case rdata => exact rederiveHead_resetIn ..
  case wdata => exact regWrite_resetIn ..
  case ldmem ddst a w =>
    obtain ⟨_, _, _, _, hr⟩ := requestVcm_frame s ⟨ddst, a, w⟩
    exact hr
  all_goals rfl

/-- LDMEM takes the oldest answer at hand, and no other command takes one (R54). -/
theorem exec_vcmIn {i : Instr} {s t : State} (h : exec i s = .next t) :
    t.vcmIn = if takesAnswer i = true then s.vcmIn.tail else s.vcmIn := by
  cases i <;> cases h
  case rdata => exact rederiveHead_vcmIn ..
  case wdata => exact regWrite_vcmIn ..
  case ldmem ddst a w =>
    obtain ⟨_, _, _, hv, _⟩ := requestVcm_frame s ⟨ddst, a, w⟩
    exact hv
  all_goals rfl

/-- A command that finds the answer it takes leaves no request outstanding (R55). -/
theorem exec_vcmPending_of_answered {i : Instr} {s t : State} (ha : takesAnswer i = true → s.vcmIn ≠ [])
    (h : exec i s = .next t) : t.vcmPending = s.vcmPending := by
  cases i <;> cases h
  case ldmem => exact requestVcm_vcmPending_of_answered (ha rfl) _
  all_goals simp

/-! ### A stream of commands -/

theorem run_succ_of_next {s t : State} (k : Nat) (h : step s = .next t) :
    Host.Core.run core (k + 1) s = Host.Core.run core k t := by
  simp [Host.Core.run, core, h]

/-- As many steps as there are packets execute the packets' commands one after another (R60, R66). -/
theorem run_flatMap_encode (is : List Instr) (rest : List Word) (s : State) (hr : s.resetIn = false)
    (hp : s.vcmPending = none) (ha : is.countP takesAnswer ≤ s.vcmIn.length) :
    Host.Core.run core is.length (s.withCmd (is.flatMap encode ++ rest)) = execAll is (s.withCmd rest) := by
  induction is generalizing s with
  | nil => rfl
  | cons i is ih =>
    obtain ⟨t, ht⟩ := exec_answers_next i s
    have hstep : step (s.withCmd ((i :: is).flatMap encode ++ rest)) =
        .next (t.withCmd (is.flatMap encode ++ rest)) := by
      rw [List.flatMap_cons, List.append_assoc,
        step_of_instr (s := s.withCmd (encode i ++ _)) hr hp (decode_encode_append i _)]
      exact exec_withCmd (s := s) _ ht
    have hhead : takesAnswer i = true → s.vcmIn ≠ [] := by
      intro hi hv
      simp [hi, hv] at ha
    have htail : is.countP takesAnswer ≤ t.vcmIn.length := by
      rw [exec_vcmIn ht]
      by_cases hi : takesAnswer i = true
      · rw [List.countP_cons_of_pos hi] at ha
        rw [if_pos hi, List.length_tail]
        omega
      · rw [List.countP_cons_of_neg hi] at ha
        rwa [if_neg hi]
    rw [List.length_cons, run_succ_of_next _ hstep,
      ih t ((exec_resetIn ht).trans hr) ((exec_vcmPending_of_answered hhead ht).trans hp) htail, execAll,
      exec_withCmd rest ht]

/-- Settles O12, by `run_flatMap_encode`. -/
theorem streamRunsCommandsInOrder : Obligations.StreamRunsCommandsInOrder := run_flatMap_encode

/-- Settles O49, by `exec_out`. -/
theorem eventsPerCommand : Obligations.EventsPerCommand := fun _ _ _ => exec_out

/-! ### The wire layout -/

/-- Settles O8: three flag bits leave bits 31:3 of their word zero. -/
theorem wireLayoutOfShadowValue : Obligations.WireLayoutOfShadowValue := by
  refine ⟨fun v => ⟨rfl, ?_, svOfWire_svToWire v⟩, fun _ _ _ _ _ _ => rfl⟩
  apply BitVec.eq_of_toNat_eq
  have hlt := v.flags.isLt
  simp [Nat.shiftRight_eq_div_pow]
  omega

/-! ### LDMEM without an answer -/

/-- Settles O44: the waiting state has no answer, so `step_waits` keeps it in every step. -/
theorem ldmemUnansweredWaits : Obligations.LdmemUnansweredWaits := by
  intro ddst address rawWord s hv hr
  rw [exec_ldmem, requestVcm_waits hv]
  refine ⟨_, rfl, fun _ => rfl, fun _ => rfl, rfl, rfl, rfl, rfl, rfl, rfl, fun ws => ?_⟩
  exact step_waits hr rfl hv

/-- The late answer ends a request in the state that an answer at hand gives (R55). -/
theorem resumeVcm_requestVcm {s : State} (r : VcmRequest) (a : SvWire) (rest : List SvWire) (hv : s.vcmIn = [])
    (hp : s.vcmPending = none) :
    State.resumeVcm { s.requestVcm r with vcmIn := a :: rest } r = State.requestVcm { s with vcmIn := a :: rest } r := by
  rw [requestVcm_waits hv, resumeVcm_answered rfl, requestVcm_answered rfl, ← hp]
  rfl

/-- Settles O45: the step is the resumption of the request, which `resumeVcm_requestVcm` compares. -/
theorem ldmemLateAnswerSameResult : Obligations.LdmemLateAnswerSameResult := by
  intro ddst address rawWord a rest s t hv hr hp h
  have hpending : t.vcmPending = some ⟨ddst, address, rawWord⟩ := by cases h; rw [requestVcm_waits hv]
  rw [step_of_pending (s := { t with vcmIn := a :: rest }) ((exec_resetIn h).trans hr) hpending]
  cases h
  rw [resumeVcm_requestVcm _ _ _ hv hp, exec_ldmem]

/-! ### The reference environment -/

theorem answer_of_present {e : RefEnv} {a : Word} {v : ShadowValue} (h : msRead e.ms a.toNat = some v) (w : Word) :
    e.answer a w = validate v w := by
  simp [RefEnv.answer, h]

theorem answer_of_absent {e : RefEnv} {a : Word} (h : msRead e.ms a.toNat = none) (w : Word) :
    e.answer a w = degrade w := by
  simp [RefEnv.answer, h]

/-- An answer at the address of a store, for the stored value's own word, is that value (R66, R72). -/
theorem answer_observe_mWr_same (e : RefEnv) (v : ShadowValue) (a : Word) :
    (e.observe (.mWr v a)).answer a v.raw = v := by
  rw [answer_of_present (msRead_msWrite_same e.ms a.toNat v), validate_of_eq rfl]

theorem answer_observe_mWr_of_ne (e : RefEnv) (v : ShadowValue) {a b : Word} (w : Word) (h : a ≠ b) :
    (e.observe (.mWr v a)).answer b w = e.answer b w := by
  have hread : msRead (e.observe (.mWr v a)).ms b.toNat = msRead e.ms b.toNat :=
    msRead_msWrite_of_ne e.ms v (h ∘ BitVec.eq_of_toNat_eq)
  rw [RefEnv.answer, hread, RefEnv.answer]

/-- Every answer keeps the contract of R54. -/
theorem vcmContract_answer (e : RefEnv) (a w : Word) : VcmContract (msRead e.ms a.toNat) w (e.answer a w) := by
  cases h : msRead e.ms a.toNat with
  | none => rw [answer_of_absent h]; exact ⟨rfl, .inr rfl⟩
  | some v =>
    rw [answer_of_present h]
    refine ⟨validate_raw v w, ?_⟩
    by_cases hraw : v.raw = w
    · exact .inl (by rw [validate_of_eq hraw])
    · exact .inr (validate_of_ne hraw)

/-- Settles O54, a lemma for each part. -/
theorem referenceEnvironmentKeepsContract : Obligations.ReferenceEnvironmentKeepsContract :=
  ⟨vcmContract_answer, answer_observe_mWr_same, fun e v _ _ w => answer_observe_mWr_of_ne e v w⟩

theorem onlyHostSlot_observe_host (e : RefEnv) (h : RegIdx) (v : ShadowValue) :
    OnlyHostSlot h v e (e.observe (.host h v)) :=
  ⟨by rw [observe_host_hs, if_pos rfl], fun k hk => by rw [observe_host_hs, if_neg hk]⟩

/-! ### Register writes as the claims state them -/

/-- `u` has the slots of `s`, whatever events and inputs differ. -/
def SameSlots (s u : State) : Prop := ∀ f j, u.slot f j = s.slot f j

theorem sameSlots_of_files {s u : State} (hd : u.d = s.d) (hc : u.c = s.c) : SameSlots s u := by
  intro f j
  cases f with
  | data => rw [State.slot, State.slot, hd]
  | ctrl => rw [State.slot, State.slot, hc]

theorem SameSlots.trans {s u v : State} (h : SameSlots s u) (h' : SameSlots u v) : SameSlots s v :=
  fun f j => (h' f j).trans (h f j)

theorem SameSlots.shifted {s u : State} (h : SameSlots s u) (v : ShadowValue) : Shifted v s (u.shift v) := by
  refine ⟨?_, ?_, ?_, ?_, fun j hj => ?_, fun j => ?_⟩
  · simp [slot_shift, sxyp, sxy2, sxy1, sxy0, h .data 13]
  · simp [slot_shift, sxyp, sxy2, sxy1, h .data 14]
  · simp [slot_shift, sxy2]
  · simp [slot_shift, sxyp]
  · rw [slot_shift_of_not_fifo _ _ (by omega), h]
  · rw [slot_shift_of_not_fifo _ _ (by simp), h]

theorem SameSlots.onlySlot {s u : State} (h : SameSlots s u) (f : FileSel) (i : RegIdx) (v : ShadowValue) :
    OnlySlot f i v s (u.writeSlot f i v) :=
  ⟨slot_writeSlot_same .., fun g j hne => by rw [slot_writeSlot_of_ne _ _ _ _ hne, h]⟩

/-- The register-write rule has the effect of R131. -/
theorem SameSlots.regWritten {s u : State} (h : SameSlots s u) (i : RegIdx) (v : ShadowValue) (w : Word) :
    RegWritten i v w s (u.regWrite i v w) := by
  refine ⟨?push, ?discard, fun h15 h31 => ?plain⟩
  case push => rintro rfl; exact h.shifted v
  case discard => rintro rfl; exact ⟨h .data, h .ctrl⟩
  case plain => rw [regWrite_plain h15 h31]; exact h.onlySlot .data i (withRaw v w)

/-- The slots after an answered LDMEM (R176). -/
theorem SameSlots.regWritten_requestVcm {s u : State} {a : SvWire} {rest : List SvWire} (h : SameSlots s u)
    (hv : u.vcmIn = a :: rest) (r : VcmRequest) :
    RegWritten r.ddst (svOfWire a) r.rawWord s (u.requestVcm r) := by
  rw [requestVcm_answered hv]
  refine SameSlots.regWritten (h.trans ?_) _ _ _
  exact sameSlots_of_files rfl rfl

/-- Settles O55: the stored value has the word of the load as its raw, so the answer is the value and the register
write keeps it whole. -/
theorem storeThenLoadRecoversShadow : Obligations.StoreThenLoadRecoversShadow := by
  intro dsrc ddst a w e rest s t h
  cases h
  generalize hu : s.validateSlot .data dsrc w = u
  generalize hv : u.slot .data dsrc = v
  have hraw : v.raw = w := by rw [← hv, ← hu, slot_validateSlot_same, validate_raw]
  have hanswer : (e.observe (.mWr v a)).answer a w = v := hraw ▸ answer_observe_mWr_same e v a
  refine ⟨.mWr v a, by rw [emit_out, ← hu, validateSlot_out], _, exec_ldmem .., ?_⟩
  have hsame : SameSlots (u.emit (.mWr v a)) { u.emit (.mWr v a) with vcmIn := svToWire v :: rest } :=
    sameSlots_of_files rfl rfl
  have hwritten := hsame.regWritten_requestVcm rfl ⟨ddst, a, w⟩
  rw [hanswer, slot_emit, hv]
  rw [svOfWire_svToWire] at hwritten
  obtain rfl := hraw
  exact hwritten

/-- Settles O56: each transfer sends one H event, which `onlyHostSlot_observe_host` follows into the host slot. -/
theorem hostSlotsFollowTransfers : Obligations.HostSlotsFollowTransfers := by
  intro e h r rd rt s
  refine ⟨?wdata, ?wctrl, ?rdata, ?rctrl⟩
  case wdata =>
    exact ⟨_, _, exec_wdata .., regWrite_out .., (sameSlots_of_files rfl rfl).regWritten _ _ _,
      onlyHostSlot_observe_host e h _⟩
  case wctrl =>
    exact ⟨_, _, exec_wctrl .., writeSlot_out .., (sameSlots_of_files rfl rfl).onlySlot _ _ _,
      onlyHostSlot_observe_host e h _⟩
  case rdata =>
    refine ⟨_, _, exec_rdata .., by rw [readTransfer_out, rederiveHead_out], ?_⟩
    rw [slot_readTransfer, slot_validateSlot_same]
    exact onlyHostSlot_observe_host e h _
  case rctrl =>
    refine ⟨_, _, exec_rctrl .., readTransfer_out .., ?_⟩
    rw [slot_readTransfer, slot_validateSlot_same]
    exact onlyHostSlot_observe_host e h _

/-! ### The block and the reference environment together -/

/-- The environment takes the events that the step appended (R71, R72). -/
theorem bench_step_of_out {b : Bench} {t : State} {es : List Event} (h : step b.block = .next t)
    (hout : t.out = b.block.out ++ es) : b.step = .next (es.foldl Bench.serve ⟨b.env, t⟩) := by
  rw [bench_step_of_next h, hout, List.drop_left]

theorem bench_step_of_no_event {b : Bench} {t : State} (h : step b.block = .next t) (hout : t.out = b.block.out) :
    b.step = .next ⟨b.env, t⟩ :=
  bench_step_of_out (es := []) h (by rw [hout, List.append_nil])

/-- The environment answers a request in the step that sends it and stays as it was (R54, R72). -/
theorem bench_step_of_request {e : RefEnv} {s t : State} {a w : Word} (h : step s = .next t)
    (hout : t.out = s.out ++ [.mVcm a w]) (hv : t.vcmIn = []) :
    Bench.step ⟨e, s⟩ = .next ⟨e, { t with vcmIn := [svToWire (e.answer a w)] }⟩ := by
  rw [bench_step_of_out h hout]
  simp [Bench.serve, RefEnv.observe, RefEnv.reply, hv]

/-- Settles O57: `bench_step_of_request` is the first step; the second is that of an answer at hand, by
`ldmemLateAnswerSameResult`. -/
theorem referenceEnvironmentAnswersLdmem : Obligations.ReferenceEnvironmentAnswersLdmem := by
  intro e s ddst a w rest hr hp hv hcmd
  have hsend : step s = .next ((s.withCmd rest).requestVcm ⟨ddst, a, w⟩) := by
    rw [step_of_instr hr hp (by rw [hcmd, decode_encode_append]), exec_ldmem]
  have hempty : ((s.withCmd rest).requestVcm ⟨ddst, a, w⟩).vcmIn = [] := by
    obtain ⟨_, _, _, hin, _⟩ := requestVcm_frame (s.withCmd rest) ⟨ddst, a, w⟩
    exact hin.trans (congrArg List.tail hv)
  have hfirst := bench_step_of_request (e := e) hsend (requestVcm_out ..) hempty
  have hlate := ldmemLateAnswerSameResult ddst a w (svToWire (e.answer a w)) [] (s.withCmd rest) _ hv hr hp rfl
  have hsecond := bench_step_of_no_event (b := ⟨e, _⟩) hlate
    ((requestVcm_out ..).trans (requestVcm_out (s.withCmd rest) ⟨ddst, a, w⟩).symm)
  have hsame : SameSlots s { s.withCmd rest with vcmIn := [svToWire (e.answer a w)] } := sameSlots_of_files rfl rfl
  have hwritten := hsame.regWritten_requestVcm rfl ⟨ddst, a, w⟩
  rw [svOfWire_svToWire] at hwritten
  obtain ⟨hcmd', hmode, hmodeIn, hin, hreset⟩ := requestVcm_frame _ _
  exact ⟨_, _, hfirst, hsecond, hwritten, hcmd',
    (requestVcm_vcmPending_of_answered (List.cons_ne_nil _ _) _).trans hp, hin, requestVcm_out .., requestVcm_seq ..,
    hmode, hmodeIn, hreset⟩

end Sys2Proof.Machine
end

section
/-! PROOFS. The command encoding (spec/30_encoding.md): the row a header selects, the length of a packet, the packet a
decoded command came from, reserved headers and incomplete packets under the step; then the statements. -/

namespace Sys2Proof.Machine

/-- Settles O1, by `decode_encode_append`. -/
theorem decodeEncodeRoundTrip : Obligations.DecodeEncodeRoundTrip := fun i rest _ => decode_encode_append i rest

/-! ### The row a header selects -/

/-- Every defined OP byte is that of a row (R81, R84). -/
theorem exists_row_of_opDefined {h : Header} (hd : h.opDefined = true) : ∃ r ∈ opTable, h.op = opCode r.op := by
  have hrows : ∀ n ∈ List.range' 1 14, ∃ r ∈ opTable, BitVec.ofNat 8 n = opCode r.op := by decide
  rw [Header.opDefined, Bool.and_eq_true, decide_eq_true_eq, decide_eq_true_eq] at hd
  obtain ⟨hlo, hhi⟩ := hd
  simpa using hrows h.op.toNat (List.mem_range'_1.2 ⟨hlo, by omega⟩)

theorem opDefined_of_wellFormed {h : Header} (hw : h.wellFormed = true) : h.opDefined = true := by
  rw [Header.wellFormed, Bool.and_eq_true, Bool.and_eq_true] at hw
  obtain ⟨⟨hop, _⟩, _⟩ := hw
  exact hop

theorem of_selectRow_eq_some {h : Word} {r : OpRow} (hs : selectRow h = some r) :
    r ∈ opTable ∧ r.selects h = true :=
  ⟨List.mem_of_find?_eq_some hs, by simpa using List.find?_some hs⟩

theorem selectRow_isSome (h : Word) : (selectRow h).isSome = (headerFields h).wellFormed := by
  rw [Bool.eq_iff_iff, selectRow, List.find?_isSome]
  constructor
  · rintro ⟨r, hr, hs⟩
    exact ((selects_iff hr h).1 hs).2
  · intro hw
    obtain ⟨r, hr, hop⟩ := exists_row_of_opDefined (opDefined_of_wellFormed hw)
    exact ⟨r, hr, (selects_iff hr h).2 ⟨hop, hw⟩⟩

theorem selectRow_eq_none_iff (h : Word) : selectRow h = none ↔ (headerFields h).wellFormed = false := by
  rw [← selectRow_isSome, Option.isSome_eq_false_iff, Option.isNone_iff_eq_none]

/-- Settles O3, by `selectRow_isSome`. -/
theorem rowSelectedIffWellFormed : Obligations.RowSelectedIffWellFormed := selectRow_isSome

/-- Settles O4: both rows have the header's OP, and a row is known by its opcode. -/
theorem atMostOneRowFits : Obligations.AtMostOneRowFits := by
  intro h r q hr hq hrs hqs
  obtain ⟨hrop, _⟩ := (selects_iff hr h).1 hrs
  obtain ⟨hqop, _⟩ := (selects_iff hq h).1 hqs
  exact opTable_op_inj hr hq (hrop.symm.trans hqop)

/-- Settles O5: the reasons are tried in turn, and a header that passes every test but the last fails the last. -/
theorem reservedReasonIsADefect : Obligations.ReservedReasonIsADefect := by
  intro w hw
  dsimp only [whyReserved]
  generalize headerFields w = h at hw ⊢
  split_ifs with hop hz1 hra hz2 hrb hz3
  · simpa using hop
  · simpa using hz1
  · simpa using hra
  · simpa using hz2
  · simpa using hrb
  · simpa using hz3
  · grind [Header.wellFormed, Header.zerosZero, Header.unusedZero]

/-! ### The length of a packet -/

theorem rowOf_selects (i : Instr) : (rowOf i).selects (encodeHeader i) = true :=
  (of_selectRow_eq_some (selectRow_encodeHeader i)).2

/-- The lengths of R95. -/
theorem row_length_mem {r : OpRow} (hr : r ∈ opTable) : r.length ∈ [1, 2, 3, 4, 5, 7, 8, 9] := by
  revert r
  decide

/-- Settles O6: a packet is as long as its command's row, which its header selects. -/
theorem packetLengthFixedByOpcode : Obligations.PacketLengthFixedByOpcode :=
  fun i => ⟨row_length_mem (rowOf_mem i), rowOf i, rowOf_mem i, rowOf_selects i, rfl⟩

/-- Settles O7: closed decodings, run by the kernel. -/
theorem sampleWordsDecode : Obligations.SampleWordsDecode := by
  unfold Obligations.SampleWordsDecode
  decide

/-! ### The packet a decoded command came from -/

/-- What a decoded stream holds: the header selects a row, and the row's payload words follow it (R85). -/
theorem of_decode_eq_instr {ws rest : List Word} {i : Instr} (hd : decode ws = .instr i rest) :
    ∃ h q r, ws = h :: q ++ rest ∧ r ∈ opTable ∧ r.selects h = true ∧ q.length = r.length - 1 ∧
      i = assemble r.op h q := by
  cases ws with
  | nil => cases hd
  | cons h p =>
    cases hs : selectRow h with
    | none => simp [decode, hs] at hd
    | some r =>
      obtain ⟨hr, hsel⟩ := of_selectRow_eq_some hs
      simp only [decode, hs] at hd
      split at hd
      · cases hd
      next hlen =>
        cases hd
        exact ⟨h, p.take (r.length - 1), r, by simp, hr, hsel, by simp; omega, rfl⟩

@[simp] theorem opcodeOf_assemble (op : Opcode) (h : Word) (q : List Word) : opcodeOf (assemble op h q) = op := by
  cases op <;> rfl

theorem rowOf_assemble {r : OpRow} (hr : r ∈ opTable) (h : Word) (q : List Word) : rowOf (assemble r.op h q) = r :=
  opTable_op_inj (rowOf_mem _) hr (congrArg opCode (opcodeOf_assemble r.op h q))

/-- A well-formed header holds nothing but its OP and the fields the assembled command keeps (R82, R84). -/
theorem header_assemble {op : Opcode} {h : Word} (hop : (headerFields h).op = opCode op)
    (hw : (headerFields h).wellFormed = true) (q : List Word) : (assemble op h q).header = headerFields h := by
  have hfile : ∀ b : BitVec 1, (if b = 0 then FileSel.data else FileSel.ctrl).bit = b := by decide
  cases op <;>
  · simp only [assemble, Instr.header, raOf_eq, rbOf_eq, fileOf_eq, hfile]
    generalize headerFields h = f at hop hw ⊢
    obtain ⟨op, z1, ra, z2, rb, z3, fb⟩ := f
    subst hop
    simp_all [Header.wellFormed, Header.zerosZero, Header.unusedZero, Header.usesRa, Header.usesRb, Header.usesF,
      opCode]

theorem encodeHeader_assemble {r : OpRow} {h : Word} (hr : r ∈ opTable) (hs : r.selects h = true) (q : List Word) :
    encodeHeader (assemble r.op h q) = h := by
  obtain ⟨hop, hw⟩ := (selects_iff hr h).1 hs
  rw [encodeHeader_eq, header_assemble hop hw, word_headerFields]

/-- The place in its packet of the flags word of a command's SV operand, the header being word 0 (R84, R89). -/
def flagsWordAt : Opcode → Option Nat
  | .swr => some 5
  | .wdata => some 7
  | .wctrl => some 7
  | _ => none

theorem flagsWordAt_eq_some_iff (i : Instr) (k : Nat) :
    flagsWordAt (opcodeOf i) = some k ↔
      (∃ f r v, i = .swr f r v ∧ k = 5) ∨ (∃ a b rd rt v, i = .wdata a b rd rt v ∧ k = 7) ∨
        (∃ a b rd rt v, i = .wctrl a b rd rt v ∧ k = 7) := by
  cases i <;> simp [flagsWordAt, opcodeOf, eq_comm]

/-- Words with bits 31:3 of the word at one place zero. -/
def clearUnusedFlagBits (at? : Option Nat) (ws : List Word) : List Word :=
  match at? with
  | none => ws
  | some k => ws.modify k (· &&& 7)

theorem getElem?_clearUnusedFlagBits_same (k : Nat) (ws : List Word) :
    (clearUnusedFlagBits (some k) ws)[k]? = ws[k]?.map (· &&& 7) := by
  simp [clearUnusedFlagBits]

theorem getElem?_clearUnusedFlagBits_of_ne {at? : Option Nat} {k : Nat} (hk : at? ≠ some k) (ws : List Word) :
    (clearUnusedFlagBits at? ws)[k]? = ws[k]? := by
  cases at? with
  | none => rfl
  | some j => simp_all [clearUnusedFlagBits]

theorem length_clearUnusedFlagBits (at? : Option Nat) (ws : List Word) :
    (clearUnusedFlagBits at? ws).length = ws.length := by
  cases at? with
  | none => rfl
  | some k => exact List.length_modify ..

/-- The flags read from a word and sent again are its bits 2:0 (R57). -/
theorem setWidth_flagBits (w : Word) : (w.extractLsb' 0 3).setWidth 32 = w &&& 7 := by
  apply BitVec.eq_of_toNat_eq
  have hmod := Nat.and_two_pow_sub_one_eq_mod w.toNat 3
  simp at hmod ⊢
  omega

/-- Six words read as a ShadowValue and sent again, bits 31:3 of the flags word cleared (R57, R89). -/
theorem svToWire_svOfWire (w : SvWire) : svToWire (svOfWire w) = { w with w4 := w.w4 &&& 7 } := by
  simp [svToWire, svOfWire, setWidth_flagBits]

@[simp] theorem i64Lo_i64OfWords (lo hi : Word) : i64Lo (i64OfWords lo hi) = lo := BitVec.extractLsb'_append_eq_right

@[simp] theorem i64Hi_i64OfWords (lo hi : Word) : i64Hi (i64OfWords lo hi) = hi := BitVec.extractLsb'_append_eq_left

/-- The payload of an assembled command is the payload received, but for the unused bits of the flags word. -/
theorem cons_encodePayload_assemble : ∀ (op : Opcode) (h : Word) (q : List Word),
    q.length = (encodePayload (assemble op h q)).length →
      h :: encodePayload (assemble op h q) = clearUnusedFlagBits (flagsWordAt op) (h :: q)
  | .init, _, [], _ => rfl
  | .srd, _, [], _ => rfl
  | .swr, h, [w0, w1, w2, w3, w4, w5], _ =>
    congrArg (h :: wireWords ·) (svToWire_svOfWire ⟨w0, w1, w2, w3, w4, w5⟩)
  | .val, _, [_], _ => rfl
  | .rdata, _, [_, _], _ => rfl
  | .wdata, h, [rd, rt, w0, w1, w2, w3, w4, w5], _ =>
    congrArg (h :: rd :: rt :: wireWords ·) (svToWire_svOfWire ⟨w0, w1, w2, w3, w4, w5⟩)
  | .rctrl, _, [_, _], _ => rfl
  | .wctrl, h, [rd, rt, w0, w1, w2, w3, w4, w5], _ =>
    congrArg (h :: rd :: rt :: wireWords ·) (svToWire_svOfWire ⟨w0, w1, w2, w3, w4, w5⟩)
  | .ldmem, _, [_, _], _ => rfl
  | .stmem, _, [_, _], _ => rfl
  | .pushf, _, [_, _, _, _], _ => rfl
  | .pushx, _, [_, _, _, _, _, _, _], _ => by
    simp [encodePayload, assemble, payloadI64, payloadWord, clearUnusedFlagBits, flagsWordAt]
  | .nclipv, _, [_, _, _], _ => rfl
  | .nclip, _, [], _ => rfl

/-- A packet and the encoding of its command differ in the unused bits of the flags word alone (R84, R89). -/
theorem encode_assemble {r : OpRow} {h : Word} {q : List Word} (hr : r ∈ opTable) (hs : r.selects h = true)
    (hq : q.length = r.length - 1) :
    encode (assemble r.op h q) = clearUnusedFlagBits (flagsWordAt r.op) (h :: q) := by
  have hlen : (encodePayload (assemble r.op h q)).length = r.length - 1 :=
    congrArg (·.length - 1) (rowOf_assemble hr h q)
  rw [encode, encodeHeader_assemble hr hs, cons_encodePayload_assemble _ _ _ (hq.trans hlen.symm)]

/-- Settles O2: the packet is the header and the payload words taken, and `encode_assemble` gives its encoding. -/
theorem decodedPacketIsEncoding : Obligations.DecodedPacketIsEncoding := by
  intro ws rest i hd
  obtain ⟨h, q, r, rfl, hr, hs, hq, rfl⟩ := of_decode_eq_instr hd
  have henc := encode_assemble hr hs hq
  refine ⟨h :: q, rfl, ?_, ?_, fun k _ => ?_⟩
  · rw [henc, length_clearUnusedFlagBits]
  · rw [encode, encodeHeader_assemble hr hs, List.head?_cons, List.head?_cons]
  · rw [← flagsWordAt_eq_some_iff, opcodeOf_assemble, henc]
    by_cases hk : flagsWordAt r.op = some k
    · exact .inr ⟨hk, by rw [hk, getElem?_clearUnusedFlagBits_same]⟩
    · exact .inl (getElem?_clearUnusedFlagBits_of_ne hk _).symm

/-! ### Reserved headers -/

/-- The decoder refuses exactly the streams whose header is a reserved encoding (R92). -/
theorem exists_decode_eq_reserved_iff (ws : List Word) :
    (∃ why, decode ws = .reserved why) ↔ ∃ h p, ws = h :: p ∧ (headerFields h).wellFormed = false := by
  cases ws with
  | nil => simp [decode]
  | cons h p =>
    simp only [List.cons.injEq, ← selectRow_eq_none_iff]
    cases hs : selectRow h with
    | none => simp [decode, hs]
    | some r =>
      simp only [decode, hs]
      split <;> simp [hs]

theorem step_of_reserved {s : State} {why : ReservedReason} (hr : s.resetIn = false) (hp : s.vcmPending = none)
    (hd : decode s.cmd = .reserved why) : step s = .fault (.reservedHeader why) := by
  simp [step, hr, hp, hd]

/-- A step completes, since every command does, or stops at a reserved header (R190, R194). -/
theorem step_next_or_reserved (s : State) :
    (∃ t, step s = .next t) ∨
      ∃ why, s.resetIn = false ∧ s.vcmPending = none ∧ decode s.cmd = .reserved why ∧
        step s = .fault (.reservedHeader why) := by
  rcases step_cases s with ⟨_, h⟩ | ⟨_, _, _, h⟩ | ⟨_, _, _, h⟩ | h | ⟨i, rest, _, _, _, h⟩
  · exact .inl ⟨_, h⟩
  · exact .inl ⟨_, h⟩
  · exact .inl ⟨_, h⟩
  · exact .inr h
  · obtain ⟨t, ht⟩ := exec_answers_next i (s.withCmd rest)
    exact .inl ⟨t, h.trans ht⟩

/-- Settles O10, by `step_next_or_reserved` and `exists_decode_eq_reserved_iff`. -/
theorem stepFaultsOnlyOnReservedHeader : Obligations.StepFaultsOnlyOnReservedHeader := by
  refine ⟨fun s => ?_, fun s r hs => ?_⟩
  · rw [← exists_decode_eq_reserved_iff]
    constructor
    · rintro ⟨r, hf⟩
      rcases step_next_or_reserved s with ⟨t, hn⟩ | ⟨why, hr, hp, hd, _⟩
      · cases hn.symm.trans hf
      · exact ⟨hr, hp, why, hd⟩
    · rintro ⟨hr, hp, why, hd⟩
      exact ⟨_, step_of_reserved hr hp hd⟩
  · rcases step_next_or_reserved s with ⟨t, hn⟩ | ⟨why, _, _, _, hf⟩
    · cases hn.symm.trans hs
    · cases hf.symm.trans hs

/-! ### Incomplete packets -/

/-- The first words of a packet that is not whole hold no command yet (R93). -/
theorem decode_take_encode {i : Instr} {k : Nat} (hk : k < (encode i).length) :
    decode ((encode i).take k) = .incomplete := by
  cases k with
  | zero => rfl
  | succ k =>
    rw [encode_length] at hk
    rw [encode, List.take_succ_cons, decode_encodeHeader, if_pos (by rw [List.length_take]; omega)]

theorem step_of_incomplete {s : State} (hr : s.resetIn = false) (hp : s.vcmPending = none)
    (hd : decode s.cmd = .incomplete) : step s = .next s := by
  simp [step, hr, hp, hd]

theorem step_of_resetIn {s : State} (hr : s.resetIn = true) : step s = .next s.hardwareReset := by
  simp [step, hr]

/-- Settles O11, by `decode_take_encode`; a reset drops the words received and zeroes every slot. -/
theorem incompletePacketWaits : Obligations.IncompletePacketWaits := by
  intro s i k hp hk hcmd
  have hd : decode s.cmd = .incomplete := by rw [hcmd, decode_take_encode hk]
  exact ⟨fun hr => step_of_incomplete hr hp hd,
    fun hr => ⟨_, step_of_resetIn hr, hardwareReset_cmd s, slot_hardwareReset s⟩⟩

end Sys2Proof.Machine
end

section
/-! PROOFS. INIT, SRD and SWR (spec/40_store.md): the header of a command that names one slot, the words of an SRD
result, the inputs under the three operations the commands are made of; then the statements. -/

namespace Sys2Proof.Machine

/-! ### The packet -/

/-- A command that names one slot has its index in RA and its file in F (R81, R84). -/
theorem word_of_fileSlot (op : Nat) (hop : op < 256) (f : FileSel) (i : RegIdx) :
    (⟨BitVec.ofNat 8 op, 0, .ofFin i, 0, 0, 0, f.bit⟩ : Header).word = headerNumber op i.val 0 (fileNumber f) := by
  rw [bit_eq_ofNat]
  exact word_eq_headerNumber op hop i 0 (fileNumber f) (fileNumber_lt f)

/-- R.sv sends the value as stored, the flags word being the flags as a number (R57). -/
theorem words_resSv (v : ShadowValue) :
    (Event.resSv v).words = [v.x, v.y, v.z, v.raw, BitVec.ofNat 32 v.flags.toNat, v.seq] := by
  rw [BitVec.ofNat_toNat]
  rfl

/-! ### The inputs -/

theorem sameInputs_zeroFiles (s : State) : SameInputs s s.zeroFiles := ⟨rfl, rfl, rfl, rfl, rfl, rfl⟩

theorem sameInputs_emit (s : State) (e : Event) : SameInputs s (s.emit e) := ⟨rfl, rfl, rfl, rfl, rfl, rfl⟩

theorem sameInputs_writeSlot (s : State) (f : FileSel) (i : RegIdx) (v : ShadowValue) :
    SameInputs s (s.writeSlot f i v) := ⟨rfl, rfl, rfl, rfl, rfl, rfl⟩

/-! ### The statements -/

/-- Settles O18: INIT is `zeroFiles`, which touches the two files alone. -/
theorem initZeroesBothFiles : Obligations.InitZeroesBothFiles :=
  ⟨encodedAs_of_header .init (by decide) rfl, fun s =>
    ⟨s.zeroFiles, exec_init s, slot_zeroFiles s, zeroFiles_seq s, zeroFiles_out s, sameInputs_zeroFiles s⟩⟩

/-- Settles O19: SRD is one `emit` of the slot as stored, which touches the events alone. -/
theorem srdReturnsSlotAsStored : Obligations.SrdReturnsSlotAsStored := by
  intro f i s
  have hpacket : EncodedAs (.srd f i) (headerNumber 0x02 i.val 0 (fileNumber f)) 1 :=
    encodedAs_of_header _ (word_of_fileSlot 0x02 (by decide) f i) rfl
  exact ⟨hpacket, words_resSv _, _, exec_srd f i s, emit_out .., slot_emit s _ .data, slot_emit s _ .ctrl,
    emit_seq .., sameInputs_emit ..⟩

/-- Settles O20: SWR is one `writeSlot`, whatever the index; no class rule stands between payload and slot. -/
theorem swrStoresWholeSlot : Obligations.SwrStoresWholeSlot := by
  intro f i v s
  have hpacket : EncodedAs (.swr f i v) (headerNumber 0x03 i.val 0 (fileNumber f)) 7 :=
    encodedAs_of_header _ (word_of_fileSlot 0x03 (by decide) f i) rfl
  have hsame : SameSlots s s := fun _ _ => rfl
  exact ⟨hpacket, _, exec_swr f i v s, hsame.onlySlot f i v, writeSlot_seq .., writeSlot_out .., sameInputs_writeSlot ..⟩

end Sys2Proof.Machine
end

section
/-! PROOFS. The validity protocol (spec/41_validate.md): flags under Validates, the exact conversion of small integers,
then the statements. -/

namespace Sys2Proof.Machine

/-! ### Validate -/

/-- Clear flags stay clear, matched or not (R124 (e)). -/
theorem validate_flags_of_none {v : ShadowValue} (h : v.flags = fNone) (w : Word) :
    (validate v w).flags = fNone := by
  rw [validate_flags, h, ite_self]

theorem foldl_validate_flags_of_none (ws : List Word) {v : ShadowValue} (h : v.flags = fNone) :
    (ws.foldl validate v).flags = fNone := by
  induction ws generalizing v with
  | nil => exact h
  | cons w ws ih => exact ih (validate_flags_of_none h w)

/-- Settles O22: laws (a) to (f) in their order, each from what Validate does on a match or on a mismatch. -/
theorem validateLaws : Obligations.ValidateLaws := by
  refine ⟨validate_raw, fun v w => validate_of_eq (validate_raw v w), fun v w hne => ?_, fun _ _ => validate_of_eq,
    flagsWithin_validate, fun _ ws => foldl_validate_flags_of_none ws, fun u w => ?_⟩
  · rw [validate_of_ne hne, degrade_flags]
    exact ⟨rfl, rfl⟩
  · rw [validate, degrade_raw]

/-- Settles O24: VAL is one `writeSlot` of the validated slot, which is the case split of R121. -/
theorem valKeepsOrDegradesSlot : Obligations.ValKeepsOrDegradesSlot := by
  intro f i w s
  have hpacket : EncodedAs (.val f i w) (headerNumber 0x04 i.val 0 (fileNumber f)) 2 :=
    encodedAs_of_header _ (word_of_fileSlot 0x04 (by decide) f i) rfl
  have hsame : SameSlots s s := fun _ _ => rfl
  exact ⟨hpacket, _, exec_val f i w s, hsame.onlySlot f i (validate (s.slot f i) w), validateSlot_seq ..,
    validateSlot_out .., sameInputs_writeSlot ..⟩

/-! ### Small integers as binary32 -/

/-- A positive integer below 2^24, shifted up to 24 bits, is a significand of the binade that its length names. -/
theorem exists_binade_of_pos {m : Nat} (hpos : m ≠ 0) (hlt : m < 2 ^ 24) :
    ∃ k q, q < 2 ^ 24 ∧ 2 ^ 23 ≤ q ∧ k ≤ 149 ∧ m * 2 ^ 149 = q * 2 ^ k := by
  obtain ⟨hlo, hhi⟩ := (Nat.log2_eq_iff hpos).1 rfl
  have hlog : m.log2 < 24 := (Nat.log2_lt hpos).2 hlt
  refine ⟨126 + m.log2, m * 2 ^ (23 - m.log2), ?_, ?_, by omega, ?_⟩
  · calc m * 2 ^ (23 - m.log2) < 2 ^ (m.log2 + 1) * 2 ^ (23 - m.log2) := Nat.mul_lt_mul_of_pos_right hhi (by positivity)
      _ = 2 ^ 24 := by rw [← pow_add]; congr 1; omega
  · calc 2 ^ 23 = 2 ^ m.log2 * 2 ^ (23 - m.log2) := by rw [← pow_add]; congr 1; omega
      _ ≤ m * 2 ^ (23 - m.log2) := Nat.mul_le_mul_right _ hlo
  · rw [mul_assoc, ← pow_add]; congr 2; omega

/-- Every integer magnitude up to 2^24 is that of a binade and a significand (R150, R152). -/
theorem exists_binade {m : Nat} (h : m ≤ 2 ^ 24) :
    ∃ k q, q < 2 ^ 24 ∧ (k = 0 ∨ 2 ^ 23 ≤ q) ∧ k * 2 ^ 23 + q < infMag ∧ m * 2 ^ 149 = q * 2 ^ k := by
  rcases Nat.eq_zero_or_pos m with rfl | hpos
  · exact ⟨0, 0, by decide⟩
  rcases Nat.lt_or_eq_of_le h with hlt | rfl
  · obtain ⟨k, q, hq, hlo, hk, hm⟩ := exists_binade_of_pos hpos.ne' hlt
    exact ⟨k, q, hq, .inr hlo, by unfold infMag; omega, hm⟩
  · exact ⟨150, 2 ^ 23, by decide⟩

/-- A conversion is negative exactly when its operand is; i2f(0) is +0.0 (R152). -/
theorem fsign_i2f (n : Int) : fsign (i2f n) = decide (n < 0) :=
  fsign_packF _ ((roundMag_le _).trans_lt (by decide))

/-- An integer of magnitude up to 2^24 is converted without rounding (R152). -/
theorem i2f_exact {n : Int} (h : n.natAbs ≤ 2 ^ 24) : fval (i2f n) = n * 2 ^ 149 ∧ isFinite (i2f n) = true := by
  obtain ⟨k, q, hq, hk, hp, hm⟩ := exists_binade h
  have hround : roundMag (n.natAbs * 2 ^ 298) = k * 2 ^ 23 + q := by
    rw [show 298 = 149 + 149 from rfl, pow_add, ← mul_assoc, hm, mul_assoc, ← pow_add, Nat.add_comm k]
    exact roundMag_exact k q hq hk hp
  have hmag : fmag (i2f n) = n.natAbs * 2 ^ 149 := by
    rw [i2f, hround, fmag_packF_binade _ k q hq hk hp, hm]
  constructor
  · rw [fval, fsign_i2f, hmag, Nat.cast_mul, Int.natCast_natAbs]
    by_cases hn : n < 0
    · simp [hn, abs_of_neg]
    · simp [hn, abs_of_nonneg (not_lt.1 hn)]
  · rw [i2f, hround]
    exact finite_packF _ hp

/-! ### Degrade -/

/-- A half, read as a signed integer, is converted exactly (R120, R152). -/
theorem i2f_half (h : Half) :
    fval (i2f h.toInt) = h.toInt * 2 ^ 149 ∧ isFinite (i2f h.toInt) = true ∧
      fsign (i2f h.toInt) = decide (h.toInt < 0) := by
  have hlo := h.le_toInt
  have hhi := h.toInt_lt
  obtain ⟨hval, hfin⟩ := i2f_exact (n := h.toInt) (by omega)
  exact ⟨hval, hfin, fsign_i2f _⟩

/-- Settles O23: `i2f_half` of either half; the other fields as Degrade sets them. -/
theorem degradeGivesSignedHalves : Obligations.DegradeGivesSignedHalves := by
  intro w
  obtain ⟨hx, hxfin, hxsign⟩ := i2f_half (xHalf w)
  obtain ⟨hy, hyfin, hysign⟩ := i2f_half (yHalf w)
  exact ⟨hx, hxfin, hxsign, hy, hyfin, hysign, degrade_z w, degrade_raw w, degrade_flags w, degrade_seq w⟩

end Sys2Proof.Machine
end

section
/-! PROOFS. The FIFO (spec/42_fifo.md): a push as the claims state it, the entries after a list of commands, rounding at
another scale and the fixed-point conversion; then the statements. -/

namespace Sys2Proof.Machine

/-! ### One push -/

theorem Shifted.emit {v : ShadowValue} {s t : State} (h : Shifted v s t) (e : Event) : Shifted v s (t.emit e) := by
  simpa [Shifted, SameFile] using h

@[simp] theorem push_mode (s : State) (x y z rp : Word) : (s.push x y z rp).mode = s.sampledMode := rfl

@[simp] theorem push_modeIn (s : State) (x y z rp : Word) : (s.push x y z rp).modeIn = s.modeIn.tail := rfl

/-- The whole push has the effect of R133 and R134. -/
theorem pushedBy_push (x y z rp : Word) (s : State) : PushedBy x y z rp s (s.push x y z rp) := by
  have hsame : SameSlots s s.afterSample.bumpSeq := sameSlots_of_files rfl rfl
  exact ⟨(hsame.shifted _).emit _, push_seq .., push_out .., rfl, rfl, rfl, push_vcmPending .., rfl, rfl⟩

/-- Settles O25: Shift is the same on every state with the slots of `s`, and writes slots alone. -/
theorem shiftMovesWholeEntries : Obligations.ShiftMovesWholeEntries := by
  intro s v
  have hsame : SameSlots s s := fun _ _ => rfl
  exact ⟨hsame.shifted v, shift_seq s v, shift_out s v,
    shift_cmd s v, shift_vcmPending s v, shift_mode s v, shift_modeIn s v, shift_vcmIn s v, shift_resetIn s v⟩

/-- Settles O26: the three arms of the rule by `SameSlots.regWritten`; none leaves the data file. -/
theorem registerWriteRule : Obligations.RegisterWriteRule := by
  intro s i v w
  have hsame : SameSlots s s := fun _ _ => rfl
  obtain ⟨_, hseq, hcmd, hpending, hout, hinputs⟩ := regWrite_frame s i v w
  exact ⟨hsame.regWritten i v w, hseq, hout, hcmd, hpending, hinputs⟩

/-- Settles O27: PUSHF is one `push` of its operands. -/
theorem pushfStampsShiftsNotifies : Obligations.PushfStampsShiftsNotifies := by
  intro x y z rp s
  have hpacket : EncodedAs (.pushf x y z rp) 0x0B000000 5 :=
    encodedAs_of_header _ (show (⟨0x0B, 0, 0, 0, 0, 0, 0⟩ : Header).word = _ by decide) rfl
  exact ⟨hpacket, _, exec_pushf x y z rp s, pushedBy_push x y z rp s⟩

/-- Settles O28: PUSHX is one `push` of its operands, converted. -/
theorem pushxConvertsThenPushes : Obligations.PushxConvertsThenPushes := by
  intro x y z rp s
  have hpacket : EncodedAs (.pushx x y z rp) 0x0C000000 8 :=
    encodedAs_of_header _ (show (⟨0x0C, 0, 0, 0, 0, 0, 0⟩ : Header).word = _ by decide) rfl
  exact ⟨hpacket, _, exec_pushx x y z rp s, pushedBy_push (fixedToF x) (fixedToF y) (integerToF z) rp s⟩

/-! ### The entries after a list of commands -/

theorem fifoEntries_congr {s t : State}
    (h : ∀ j : RegIdx, 12 ≤ j.val ∧ j.val ≤ 14 → t.slot .data j = s.slot .data j) :
    fifoEntries t = fifoEntries s := by
  simp [fifoEntries, h 12, h 13, h 14]

/-- Of the commands that write the FIFO by pushes only, just an LDMEM without an answer pushes nothing (R55, R132). -/
theorem ldmem_of_pushOnly {i : Instr} {s : State} (hi : pushOnly i = true) (hp : pushOf i s = none) :
    s.vcmIn = [] ∧ ∃ a w, i = .ldmem 15 a w := by
  cases i <;> simp_all [pushOnly, pushOf]

/-- Under R137's proviso a command appends to the FIFO what it pushes, and the oldest entry drops out (R130, R137). -/
theorem fifoEntries_exec {i : Instr} {s t : State} (hi : keepsFifoOrder i) (h : exec i s = .next t) :
    fifoEntries t = (fifoEntries s ++ (pushOf i s).toList).drop (pushOf i s).toList.length := by
  cases hp : pushOf i s with
  | some v =>
    obtain ⟨u, hu, hslots⟩ := exec_of_pushOf hp
    obtain rfl : t = u := by rw [h] at hu; cases hu; rfl
    exact (fifoEntries_congr fun j _ => hslots .data j).trans (fifoEntries_shift s v)
  | none =>
    have hkeep : fifoEntries t = fifoEntries s := by
      rcases hi with hi | hi
      · obtain ⟨hv, a, w, rfl⟩ := ldmem_of_pushOnly hi hp
        cases h
        rw [requestVcm_waits hv]
        rfl
      · exact fifoEntries_congr fun j hj => slotsWrittenOnlyByTable i s t .data j h (hi j hj)
    simp [hkeep]

/-- Under R137's proviso a list of commands completes and leaves the last three entries (R137). -/
theorem fifoEntries_execAll {is : List Instr} {s : State} (his : ∀ i ∈ is, keepsFifoOrder i) :
    ∃ t, execAll is s = .next t ∧ fifoEntries t = (fifoEntries s ++ pushesOf is s).drop (pushesOf is s).length := by
  induction is generalizing s with
  | nil => exact ⟨s, rfl, by simp [pushesOf]⟩
  | cons i is ih =>
    obtain ⟨u, hu⟩ := exec_answers_next i s
    obtain ⟨t, ht, hfifo⟩ := ih (s := u) fun j hj => his j (List.mem_cons_of_mem _ hj)
    have hpushes : pushesOf (i :: is) s = (pushOf i s).toList ++ pushesOf is u := by simp [pushesOf, hu]
    refine ⟨t, by simp [execAll, hu, ht], ?_⟩
    rw [hfifo, fifoEntries_exec (his i (List.mem_cons_self ..)) hu, hpushes, List.length_append, ← List.drop_drop,
      ← List.append_assoc, List.drop_append_of_le_length (l₁ := fifoEntries s ++ (pushOf i s).toList) (by simp)]

/-- Settles O30: three shifts of the entries made, then `fifoEntries_execAll`, then `exec_of_pushOf`. -/
theorem fifoHoldsLastThreePushes : Obligations.FifoHoldsLastThreePushes := by
  refine ⟨fun x0 y0 z0 r0 x1 y1 z1 r1 x2 y2 z2 r2 s => ?_, fun _ _ => fifoEntries_execAll, fun i s v h => ?_⟩
  · refine ⟨((s.push x0 y0 z0 r0).push x1 y1 z1 r1).push x2 y2 z2 r2, rfl, ?_⟩
    simp [slot_push, slot_shift, sxyp, sxy2, sxy1, sxy0, pushedEntry_eq, entryMade, State.sampledMode,
      BitVec.add_assoc]
  · obtain ⟨t, ht, hslots⟩ := exec_of_pushOf h
    exact ⟨t, ht, by simp [hslots, slot_shift, sxyp], by simp [hslots, slot_shift, sxy2]⟩

/-! ### Rounding at another scale -/

/-- Above the subnormal range a power of two moves the rounded pattern by binades and leaves its fraction (R151). -/
theorem roundMag_mul_two_pow {m : Nat} (hm : 172 ≤ m.log2) (e : Nat) :
    roundMag (m * 2 ^ e) = min (roundMag m + e * 2 ^ 23) infMag := by
  have hne : m ≠ 0 := by rintro rfl; simp at hm
  have hpos : 0 < 2 ^ e := Nat.two_pow_pos e
  obtain ⟨b, hb⟩ : ∃ b, m.log2 = b + 172 := ⟨m.log2 - 172, by omega⟩
  have hshift : max (m.log2 - 23) 149 = b + 149 := by omega
  have hshift' : max ((m * 2 ^ e).log2 - 23) 149 = b + 149 + e := by rw [log2_mul_two_pow hne]; omega
  have hhalf : 2 ^ (b + 149 + e - 1) = 2 ^ (b + 149 - 1) * 2 ^ e := by rw [← pow_add]; congr 1; omega
  simp only [roundMag, hshift, hshift', hhalf]
  rw [pow_add 2 (b + 149) e, Nat.mul_div_mul_right _ _ hpos, Nat.mul_mod_mul_right]
  simp only [Nat.mul_lt_mul_right hpos, Nat.mul_left_inj hpos.ne', show b + 149 + e - 149 = b + e by omega,
    Nat.add_sub_cancel]
  rw [← Nat.add_min_add_right, min_assoc, Nat.min_eq_right (Nat.le_add_right ..), Nat.add_mul, Nat.add_right_comm]

/-- The pattern of a magnitude above the subnormal range lies in the binade of its length or at the foot of the next. -/
theorem roundMag_mem_binade {m : Nat} (hm : 172 ≤ m.log2) (hlt : m.log2 < 424) :
    (m.log2 - 171) * 2 ^ 23 ≤ roundMag m ∧ roundMag m ≤ (m.log2 - 170) * 2 ^ 23 := by
  have hne : m ≠ 0 := by rintro rfl; simp at hm
  obtain ⟨hlo, hhi⟩ := (Nat.log2_eq_iff hne).1 rfl
  have hq : 2 ^ 23 ≤ m / 2 ^ (m.log2 - 23) := by
    rw [Nat.le_div_iff_mul_le (by positivity), ← pow_add, show 23 + (m.log2 - 23) = m.log2 by omega]
    exact hlo
  have hq' : m / 2 ^ (m.log2 - 23) < 2 ^ 24 := by
    rw [Nat.div_lt_iff_lt_mul (by positivity), ← pow_add, show 24 + (m.log2 - 23) = m.log2 + 1 by omega]
    exact hhi
  simp only [roundMag, show max (m.log2 - 23) 149 = m.log2 - 23 by omega, infMag]
  constructor <;> split <;> omega

/-! ### The fixed-point conversion -/

/-- A magnitude pattern is the number of a binade and a significand (R150). -/
theorem exists_binade_of_pattern (p : Nat) :
    ∃ k q, q < 2 ^ 24 ∧ (k = 0 ∨ 2 ^ 23 ≤ q) ∧ p = k * 2 ^ 23 + q := by
  by_cases h : p < 2 ^ 23
  · exact ⟨0, p, by omega, .inl rfl, by omega⟩
  · exact ⟨p / 2 ^ 23 - 1, p % 2 ^ 23 + 2 ^ 23, by omega, by omega, by omega⟩

/-- Binades further up, the same fraction is the magnitude times a power of two (R150). -/
theorem fmag_packF_add_binades (n : Bool) {p e : Nat} (hlo : 2 ^ 23 ≤ p) (hhi : p + e * 2 ^ 23 < infMag) :
    fmag (packF n (p + e * 2 ^ 23)) = fmag (packF n p) * 2 ^ e := by
  obtain ⟨k, q, hq, hk, rfl⟩ := exists_binade_of_pattern p
  have hq' : 2 ^ 23 ≤ q := by omega
  have hsum : k * 2 ^ 23 + q + e * 2 ^ 23 = (k + e) * 2 ^ 23 + q := by omega
  have hp : k * 2 ^ 23 + q < infMag := (Nat.le_add_right ..).trans_lt hhi
  rw [hsum] at hhi ⊢
  rw [fmag_packF_binade n (k + e) q hq (.inr hq') hhi, fmag_packF_binade n k q hq (.inr hq') hp, pow_add, mul_assoc]

/-- The magnitude of a finite pattern rounds to that pattern. -/
theorem roundMag_fmag_packF (n : Bool) {p : Nat} (hp : p < infMag) : roundMag (fmag (packF n p) * 2 ^ 149) = p := by
  obtain ⟨k, q, hq, hk, rfl⟩ := exists_binade_of_pattern p
  rw [fmag_packF_binade n k q hq hk hp, mul_assoc, ← pow_add, Nat.add_comm k]
  exact roundMag_exact k q hq hk hp

/-- A product of finite patterns is rounded once (R151). -/
theorem fmul_of_finite {a b : Word} (ha : isFinite a = true) (hb : isFinite b = true) :
    fmul a b = packF (fsign a ^^ fsign b) (roundMag (fmag a * fmag b)) := by
  obtain ⟨hna, hia⟩ := isNaN_isInf_of_finite a ha
  obtain ⟨hnb, hib⟩ := isNaN_isInf_of_finite b hb
  simp [fmul, hna, hia, hnb, hib]

/-- Sixteen binades lower the pattern is that of the scaled value: nothing is rounded again (R136, R152). -/
theorem fscale16_packF (n : Bool) {p : Nat} (hlo : 2 ^ 23 ≤ p) (hhi : p + 16 * 2 ^ 23 < infMag) :
    fscale16 (packF n (p + 16 * 2 ^ 23)) = packF n p := by
  have hp : p + 16 * 2 ^ 23 < 2 ^ 31 := hhi.trans (by decide)
  have hmag : fmag (packF n (p + 16 * 2 ^ 23)) * fmag fTwoPowMinus16 = fmag (packF n p) * 2 ^ 149 := by
    rw [fmag_packF_add_binades n hlo hhi, show fmag fTwoPowMinus16 = 2 ^ 133 by decide, mul_assoc, ← pow_add]
  rw [fscale16, fmul_of_finite (finite_packF n hhi) (by decide), hmag, roundMag_fmag_packF n (by omega),
    fsign_packF n hp, show fsign fTwoPowMinus16 = false by decide, Bool.xor_false]

/-- A nonzero 64-bit integer over 65536 rounds to a normal pattern, the integer itself sixteen binades above (R136). -/
theorem roundMag_fixedPoint {m : Nat} (hne : m ≠ 0) (hle : m ≤ 2 ^ 63) :
    2 ^ 23 ≤ roundMag (m * 2 ^ 282) ∧ roundMag (m * 2 ^ 282) + 16 * 2 ^ 23 < infMag ∧
      roundMag (m * 2 ^ 298) = roundMag (m * 2 ^ 282) + 16 * 2 ^ 23 := by
  have hlog : m.log2 < 64 := (Nat.log2_lt hne).2 (by omega)
  have hlog' : (m * 2 ^ 282).log2 = m.log2 + 282 := log2_mul_two_pow hne 282
  obtain ⟨hlo, hhi⟩ := roundMag_mem_binade (m := m * 2 ^ 282) (by omega) (by omega)
  rw [hlog'] at hlo hhi
  have hlow : 2 ^ 23 ≤ (m.log2 + 282 - 171) * 2 ^ 23 := by omega
  have hroom : roundMag (m * 2 ^ 282) + 16 * 2 ^ 23 < infMag := by unfold infMag; omega
  refine ⟨hlow.trans hlo, hroom, ?_⟩
  rw [show 298 = 282 + 16 from rfl, pow_add, ← mul_assoc, roundMag_mul_two_pow (by omega), Nat.min_eq_left hroom.le]

/-- The conversion of a nonzero 64-bit integer, before and after the division by 65536 (R135, R136). -/
theorem i2f_fscale16_patterns {n : Int} (hne : n ≠ 0) (hle : n.natAbs ≤ 2 ^ 63) :
    ∃ p, 2 ^ 23 ≤ p ∧ p + 16 * 2 ^ 23 < infMag ∧ roundMag (n.natAbs * 2 ^ 282) = p ∧
      i2f n = packF (decide (n < 0)) (p + 16 * 2 ^ 23) ∧ fscale16 (i2f n) = packF (decide (n < 0)) p := by
  obtain ⟨hlo, hhi, hround⟩ := roundMag_fixedPoint (Int.natAbs_ne_zero.2 hne) hle
  have hconv : i2f n = packF (decide (n < 0)) (roundMag (n.natAbs * 2 ^ 282) + 16 * 2 ^ 23) := by rw [i2f, hround]
  exact ⟨_, hlo, hhi, rfl, hconv, by rw [hconv, fscale16_packF _ hlo hhi]⟩

/-- Settles O29: for n nonzero the patterns of `i2f_fscale16_patterns`, sixteen binades apart, so that the value is
exactly divided; below 2^24 the first conversion is exact too. -/
theorem fixedPointConversionRoundsOnce : Obligations.FixedPointConversionRoundsOnce := by
  intro v
  have hlo := v.le_toInt
  have hhi := v.toInt_lt
  generalize v.toInt = n at *
  rcases eq_or_ne n 0 with rfl | hne
  · decide +kernel
  obtain ⟨p, hnormal, hroom, hround, hconv, hscaled⟩ := i2f_fscale16_patterns hne (by omega)
  have hp : p < infMag := by omega
  have hexp : 1 ≤ p / 2 ^ 23 ∧ p / 2 ^ 23 < 255 := by unfold infMag at hp; omega
  rw [hscaled, hround, fexp_packF _ (hp.trans (by decide))]
  refine ⟨rfl, fun _ => hexp, fun h24 => ?_⟩
  rw [← (i2f_exact h24.le).1, hconv, fval_packF _ hp, fval_packF _ hroom, fmag_packF_add_binades _ hnormal hroom]
  split <;> simp

end Sys2Proof.Machine
end

section
/-! PROOFS. The near-clip evaluator and its arithmetic (spec/43_nclip.md): the magnitude of a pattern, rounding, the
operations by kind of operand, comparison; then NCLIPV, NCLIP and the statements. -/

namespace Sys2Proof.Machine

/-! ### The magnitude of a pattern -/

/-- The magnitude of the pattern `p` without its sign, in units of 2^-149. It goes on past the infinity's pattern, so
that it is strictly monotone everywhere (R150). -/
def patternMag (p : Nat) : Nat := if p / 2 ^ 23 = 0 then p % 2 ^ 23 else (2 ^ 23 + p % 2 ^ 23) * 2 ^ (p / 2 ^ 23 - 1)

theorem fmag_packF (n : Bool) {p : Nat} (hp : p < 2 ^ 31) : fmag (packF n p) = patternMag p := by
  rw [fmag, fexp_packF n hp, ffrac_packF n hp, patternMag]

/-- A pattern is its sign and its low 31 bits (R150). -/
theorem eq_packF (a : Word) : a = packF (fsign a) (a.toNat % 2 ^ 31) := by
  apply BitVec.eq_of_toNat_eq
  have hlt := a.isLt
  rw [packF_toNat _ (Nat.mod_lt _ (by decide)), fsign_eq]
  by_cases hs : 2 ^ 31 ≤ a.toNat
  · rw [decide_eq_true hs]; simp; omega
  · rw [decide_eq_false hs]; simp; omega

theorem fmag_eq_patternMag (a : Word) : fmag a = patternMag (a.toNat % 2 ^ 31) := by
  conv_lhs => rw [eq_packF a]
  exact fmag_packF _ (Nat.mod_lt _ (by decide))

/-- Binade and significand give the magnitude; the significand 2^24 is the foot of the next binade. -/
theorem patternMag_binade {k q : Nat} (hq : q ≤ 2 ^ 24) (hk : k = 0 ∨ 2 ^ 23 ≤ q) :
    patternMag (k * 2 ^ 23 + q) = q * 2 ^ k := by
  unfold patternMag
  rcases Nat.lt_or_ge q (2 ^ 23) with hlow | hlow
  · obtain rfl : k = 0 := by omega
    rw [if_pos (by omega)]
    omega
  rw [if_neg (by omega)]
  rcases Nat.lt_or_eq_of_le hq with hlt | rfl
  · rw [show (k * 2 ^ 23 + q) / 2 ^ 23 - 1 = k by omega, show 2 ^ 23 + (k * 2 ^ 23 + q) % 2 ^ 23 = q by omega]
  · rw [show (k * 2 ^ 23 + 2 ^ 24) / 2 ^ 23 - 1 = k + 1 by omega, show (k * 2 ^ 23 + 2 ^ 24) % 2 ^ 23 = 0 by omega,
      pow_succ 2 k]
    ring

/-- The order of the patterns is the order of the magnitudes (R150). -/
theorem patternMag_strictMono : StrictMono patternMag := by
  refine strictMono_nat_of_lt_succ fun p => ?_
  obtain ⟨k, q, hq, hk, rfl⟩ := exists_binade_of_pattern p
  rw [patternMag_binade hq.le hk, Nat.add_assoc, patternMag_binade hq (by omega)]
  exact Nat.mul_lt_mul_of_pos_right (Nat.lt_succ_self q) (Nat.two_pow_pos k)

/-- The kind of a pattern by its low 31 bits (R150). -/
theorem isFinite_eq (a : Word) : isFinite a = decide (a.toNat % 2 ^ 31 < infMag) := by
  rw [isFinite, fexp_eq, Bool.eq_iff_iff, decide_eq_true_iff, decide_eq_true_iff, infMag]
  omega

theorem fmag_of_isInf {a : Word} (h : isInf a = true) : fmag a = patternMag infMag := by
  rw [eq_infinityOf a h, ← packF_infMag, fmag_packF _ (by decide)]

theorem fmag_lt_of_isFinite {a : Word} (h : isFinite a = true) : fmag a < patternMag infMag := by
  rw [isFinite_eq, decide_eq_true_iff] at h
  rw [fmag_eq_patternMag]
  exact patternMag_strictMono h

/-! ### Rounding -/

/-- The quotient that `roundMag` forms is a significand: at most 24 bits, and 24 of them above the subnormals. -/
theorem significand_bounds {m s : Nat} (hs : max (m.log2 - 23) 149 = s) :
    m / 2 ^ s < 2 ^ 24 ∧ (s = 149 ∨ 2 ^ 23 ≤ m / 2 ^ s) := by
  constructor
  · rw [Nat.div_lt_iff_lt_mul (by positivity), ← pow_add]
    exact Nat.lt_log2_self.trans_le (Nat.pow_le_pow_right (by decide) (by omega))
  · rcases Nat.eq_or_lt_of_le (hs ▸ le_max_right .. : 149 ≤ s) with rfl | hlt
    · exact .inl rfl
    · have hm : m ≠ 0 := by rintro rfl; simp at hs; omega
      rw [Nat.le_div_iff_mul_le (by positivity), ← pow_add]
      exact .inr ((Nat.pow_le_pow_right (by decide) (by omega)).trans (Nat.log2_self_le hm))

/-- What rounding does: with `p` the last pattern not above `m`, it gives `p` or the next one, by the side of the
midpoint that `m` is on and on the midpoint by the parity of `p` (R151). -/
theorem roundMag_floor (m : Nat) :
    ∃ p, patternMag p * 2 ^ 149 ≤ m ∧ m < patternMag (p + 1) * 2 ^ 149 ∧
      roundMag m = min (if patternMag p * 2 ^ 149 + patternMag (p + 1) * 2 ^ 149 < 2 * m ∨
        2 * m = patternMag p * 2 ^ 149 + patternMag (p + 1) * 2 ^ 149 ∧ p % 2 = 1 then p + 1 else p) infMag := by
  obtain ⟨k, hs⟩ : ∃ k, max (m.log2 - 23) 149 = k + 149 := ⟨max (m.log2 - 23) 149 - 149, by omega⟩
  obtain ⟨hq, hk⟩ := significand_bounds hs
  have hdiv := Nat.div_add_mod m (2 ^ (k + 149))
  have hmod := Nat.mod_lt m (Nat.two_pow_pos (k + 149))
  obtain ⟨half, hhalf⟩ : ∃ half, half = 2 ^ (k + 149 - 1) := ⟨_, rfl⟩
  have hgap : 2 ^ (k + 149) = 2 * half := by rw [hhalf, ← pow_succ']; congr 1
  refine ⟨k * 2 ^ 23 + m / 2 ^ (k + 149), ?_⟩
  rw [patternMag_binade hq.le (by omega), Nat.add_assoc, patternMag_binade hq (by omega), mul_assoc, mul_assoc,
    ← pow_add, Nat.succ_mul]
  simp only [roundMag, hs, ← hhalf, Nat.add_sub_cancel, Bool.or_eq_true, Bool.and_eq_true, decide_eq_true_eq]
  rw [Nat.mul_comm] at hdiv
  generalize m / 2 ^ (k + 149) * 2 ^ (k + 149) = lo at *
  generalize m / 2 ^ (k + 149) = q at *
  generalize m % 2 ^ (k + 149) = r at *
  generalize 2 ^ (k + 149) = gap at *
  clear hhalf hk
  refine ⟨by omega, by omega, ?_⟩
  congr 1
  split_ifs <;> omega

/-- A magnitude at or above a pattern's rounds to it or above: rounding is monotone. -/
theorem le_roundMag {p m : Nat} (hp : p ≤ infMag) (h : patternMag p * 2 ^ 149 ≤ m) : p ≤ roundMag m := by
  obtain ⟨q, -, hlt, hround⟩ := roundMag_floor m
  have hpq : p < q + 1 := patternMag_strictMono.lt_iff_lt.1 (Nat.lt_of_mul_lt_mul_right (h.trans_lt hlt))
  rw [hround]
  refine le_min ?_ hp
  split <;> omega

/-- The neighbour of `m` chosen by the midpoint and by parity is the nearest value of a rising sequence; another one
as near leaves the even place chosen. -/
theorem nearest_of_floor {f : Nat → Nat} (hf : StrictMono f) {m p r : Nat} (hlo : f p ≤ m) (hhi : m < f (p + 1))
    (hr : r = if f p + f (p + 1) < 2 * m ∨ 2 * m = f p + f (p + 1) ∧ p % 2 = 1 then p + 1 else p) (q : Nat) :
    ((f r : Int) - m).natAbs ≤ ((f q : Int) - m).natAbs ∧
      (((f q : Int) - m).natAbs = ((f r : Int) - m).natAbs → q ≠ r → r % 2 = 0) := by
  have hle : q ≤ p → f q ≤ f p := fun h => hf.monotone h
  have hlt : q < p → f q < f p := fun h => hf h
  have hge : p + 1 ≤ q → f (p + 1) ≤ f q := fun h => hf.monotone h
  have hgt : p + 1 < q → f (p + 1) < f q := fun h => hf h
  split_ifs at hr with hup
  · subst hr; omega
  · subst hr; omega

/-- Rounding a magnitude that does not overflow gives a nearest pattern, the even one of two (R151). -/
theorem roundMag_nearest {m : Nat} (hm : roundMag m < infMag) (q : Nat) :
    ((patternMag (roundMag m) * 2 ^ 149 : Nat) - (m : Int)).natAbs ≤
        ((patternMag q * 2 ^ 149 : Nat) - (m : Int)).natAbs ∧
      (((patternMag q * 2 ^ 149 : Nat) - (m : Int)).natAbs =
          ((patternMag (roundMag m) * 2 ^ 149 : Nat) - (m : Int)).natAbs → q ≠ roundMag m → roundMag m % 2 = 0) := by
  obtain ⟨p, hlo, hhi, hround⟩ := roundMag_floor m
  have hmono : StrictMono fun q => patternMag q * 2 ^ 149 :=
    patternMag_strictMono.mul_const (Nat.two_pow_pos 149)
  exact nearest_of_floor hmono hlo hhi (by rw [hround] at hm ⊢; omega) q

/-- The magnitudes on both sides of the overflow midpoint: the largest finite one and the infinity's (R151). -/
theorem patternMag_around_infMag :
    patternMag (infMag - 1) * 2 ^ 149 = (2 ^ 25 - 2) * 2 ^ 401 ∧ patternMag infMag * 2 ^ 149 = 2 ^ 25 * 2 ^ 401 := by
  decide +kernel

/-- Rounding overflows at the midpoint past the largest finite magnitude (R151). -/
theorem roundMag_eq_infMag_iff (m : Nat) : roundMag m = infMag ↔ (2 ^ 25 - 1) * 2 ^ 401 ≤ m := by
  obtain ⟨p, hlo, hhi, hround⟩ := roundMag_floor m
  obtain ⟨hmax, hinf⟩ := patternMag_around_infMag
  obtain ⟨top, htop, hodd⟩ : ∃ top, infMag = top + 1 ∧ top % 2 = 1 := ⟨infMag - 1, rfl, rfl⟩
  have hmono : Monotone fun q => patternMag q * 2 ^ 149 := patternMag_strictMono.monotone.mul_const' _
  rw [htop, Nat.add_sub_cancel] at hmax
  rw [htop] at hinf hround ⊢
  generalize 2 ^ 401 = unit at *
  have hplace : p < top ∨ p = top ∨ top < p := lt_trichotomy p top
  rcases hplace with h | rfl | h
  · have hle : patternMag (p + 1) * 2 ^ 149 ≤ patternMag top * 2 ^ 149 := hmono h
    split at hround <;> omega
  · split at hround <;> omega
  · have hle : patternMag (top + 1) * 2 ^ 149 ≤ patternMag p * 2 ^ 149 := hmono h
    split at hround <;> omega

theorem fmag_ofNat {p : Nat} (hp : p < infMag) : fmag (BitVec.ofNat 32 p) = patternMag p := by
  unfold infMag at hp
  rw [fmag_eq_patternMag, BitVec.toNat_ofNat, Nat.mod_eq_of_lt (by omega), Nat.mod_eq_of_lt (by omega)]

/-- Settles O31, by `roundMag_nearest` and `roundMag_eq_infMag_iff`; i2f is defined so. -/
theorem roundingIsNearestEven : Obligations.RoundingIsNearestEven := by
  refine ⟨fun m p hm hp => ?_, roundMag_eq_infMag_iff, fun _ => rfl⟩
  simpa [fmag_ofNat hm, fmag_ofNat hp] using roundMag_nearest hm p

/-! ### Sums, differences and products of finite operands -/

/-- The pattern of the exact value `v`, in units of 2^-149, rounded once under its sign (R151). -/
def roundVal (v : Int) : Word := packF (decide (v < 0)) (roundMag (v.natAbs * 2 ^ 149))

theorem roundMag_lt (m : Nat) : roundMag m < 2 ^ 31 := (roundMag_le m).trans_lt (by decide)

theorem fsign_roundVal (v : Int) : fsign (roundVal v) = decide (v < 0) := fsign_packF _ (roundMag_lt _)

theorem isNaN_roundVal (v : Int) : isNaN (roundVal v) = false := isNaN_packF _ (roundMag_le _)

theorem patternMag_le_fmag_roundVal {p : Nat} {v : Int} (hp : p ≤ infMag) (h : patternMag p ≤ v.natAbs) :
    patternMag p ≤ fmag (roundVal v) := by
  rw [roundVal, fmag_packF _ (roundMag_lt _)]
  exact patternMag_strictMono.monotone (le_roundMag hp (Nat.mul_le_mul_right _ h))

theorem fadd_of_finite {a b : Word} (ha : isFinite a = true) (hb : isFinite b = true) : fadd a b = faddFinite a b := by
  obtain ⟨hna, hia⟩ := isNaN_isInf_of_finite a ha
  obtain ⟨hnb, hib⟩ := isNaN_isInf_of_finite b hb
  simp [fadd, hna, hia, hnb, hib]

theorem fadd_of_sum_ne_zero {a b : Word} (ha : isFinite a = true) (hb : isFinite b = true)
    (h : fval a + fval b ≠ 0) : fadd a b = roundVal (fval a + fval b) := by
  rw [fadd_of_finite ha hb, faddFinite, if_neg h, roundVal]

theorem fadd_of_sum_eq_zero {a b : Word} (ha : isFinite a = true) (hb : isFinite b = true)
    (h : fval a + fval b = 0) : fadd a b = zeroOf (fsign a && fsign b) := by
  rw [fadd_of_finite ha hb, faddFinite, if_pos h, packF_zero]

theorem fsign_fneg (b : Word) : fsign (fneg b) = !fsign b := (fneg_fields b).2.2

theorem fval_fneg (b : Word) : fval (fneg b) = -fval b := (fneg_val b).1

theorem isFinite_fneg (b : Word) : isFinite (fneg b) = isFinite b := (fneg_val b).2

theorem isNaN_fneg (b : Word) : isNaN (fneg b) = isNaN b := (isNaN_isInf_fneg b).1

theorem isInf_fneg (b : Word) : isInf (fneg b) = isInf b := (isNaN_isInf_fneg b).2

theorem fsub_of_difference_ne_zero {a b : Word} (ha : isFinite a = true) (hb : isFinite b = true)
    (h : fval a - fval b ≠ 0) : fsub a b = roundVal (fval a - fval b) := by
  rw [Int.sub_eq_add_neg, ← fval_fneg] at h ⊢
  exact fadd_of_sum_ne_zero ha (isFinite_fneg b ▸ hb) h

theorem fsub_of_difference_eq_zero {a b : Word} (ha : isFinite a = true) (hb : isFinite b = true)
    (h : fval a - fval b = 0) : fsub a b = zeroOf (fsign a && !fsign b) := by
  rw [Int.sub_eq_add_neg, ← fval_fneg] at h
  rw [← fsign_fneg]
  exact fadd_of_sum_eq_zero ha (isFinite_fneg b ▸ hb) h

/-- A product has the exclusive-or of the signs and the product of the magnitudes. -/
theorem fval_mul (a b : Word) :
    fval a * fval b =
      if (fsign a ^^ fsign b) = true then -((fmag a * fmag b : Nat) : Int) else (fmag a * fmag b : Nat) := by
  unfold fval
  cases fsign a <;> cases fsign b <;> simp

theorem natAbs_fval_mul (a b : Word) : (fval a * fval b).natAbs = fmag a * fmag b := by
  rw [Int.natAbs_mul, fval_natAbs, fval_natAbs]

/-- The magnitude of a finite pattern is kept by rounding, under either sign. -/
theorem packF_roundMag_fmag {c : Word} (hc : isFinite c = true) (n : Bool) :
    fval (packF n (roundMag (fmag c * 2 ^ 149))) = (if n = true then -(fmag c : Int) else fmag c) ∧
      isFinite (packF n (roundMag (fmag c * 2 ^ 149))) = true := by
  obtain ⟨p, hp, hround, hmag⟩ := roundMag_fmag c hc
  rw [hround, fval_packF n hp, hmag]
  exact ⟨rfl, finite_packF n hp⟩

theorem roundVal_fval {c : Word} (hc : isFinite c = true) :
    fval (roundVal (fval c)) = fval c ∧ isFinite (roundVal (fval c)) = true := by
  have habs := fval_natAbs c
  obtain ⟨hval, hfin⟩ := packF_roundMag_fmag hc (decide (fval c < 0))
  rw [roundVal, habs]
  refine ⟨?_, hfin⟩
  rw [hval]
  simp only [decide_eq_true_eq]
  split <;> omega

theorem zeroOf_exact (n : Bool) : fval (zeroOf n) = 0 ∧ isFinite (zeroOf n) = true := by cases n <;> decide

section
variable {a b c : Word} (ha : isFinite a = true) (hb : isFinite b = true) (hc : isFinite c = true)
include ha hb hc

/-- A representable sum is exact (R151). -/
theorem fadd_exact (h : fval a + fval b = fval c) : fval (fadd a b) = fval c ∧ isFinite (fadd a b) = true := by
  by_cases hz : fval a + fval b = 0
  · rw [fadd_of_sum_eq_zero ha hb hz, ← h, hz]
    exact zeroOf_exact _
  · rw [fadd_of_sum_ne_zero ha hb hz, h]
    exact roundVal_fval hc

/-- A representable difference is exact (R151). -/
theorem fsub_exact (h : fval a - fval b = fval c) : fval (fsub a b) = fval c ∧ isFinite (fsub a b) = true :=
  fadd_exact ha (isFinite_fneg b ▸ hb) hc (by rw [fval_fneg, ← Int.sub_eq_add_neg, h])

/-- A representable product is exact (R151). -/
theorem fmul_exact (h : fval a * fval b = fval c * 2 ^ 149) :
    fval (fmul a b) = fval c ∧ isFinite (fmul a b) = true := by
  have hmag : fmag a * fmag b = fmag c * 2 ^ 149 := by
    rw [← natAbs_fval_mul, h, Int.natAbs_mul, fval_natAbs]; rfl
  obtain ⟨hval, hfin⟩ := packF_roundMag_fmag hc (fsign a ^^ fsign b)
  rw [fmul_of_finite ha hb, hmag]
  refine ⟨?_, hfin⟩
  rw [fval_mul, hmag] at h
  rw [hval]
  split_ifs at h ⊢ <;> omega

end

/-- Settles O32: the exact results, then the rounded ones as `roundVal` and `fmul_of_finite` give them. -/
theorem floatOpsExactWhenRepresentable : Obligations.FloatOpsExactWhenRepresentable := by
  refine ⟨fun a b c ha hb hc => ⟨fadd_exact ha hb hc, fsub_exact ha hb hc, fmul_exact ha hb hc⟩, fun a b ha hb => ?_⟩
  rw [natAbs_fval_mul]
  exact ⟨fadd_of_sum_ne_zero ha hb, fsub_of_difference_ne_zero ha hb, fmul_of_finite ha hb⟩

/-- Settles O34, by `i2f_exact`. -/
theorem smallIntegersConvertExactly : Obligations.SmallIntegersConvertExactly := fun _ => i2f_exact

/-! ### NaN results -/

/-- `r` is the canonical NaN under the condition `c` and no NaN otherwise. -/
def NaNExactlyIf (r : Word) (c : Prop) : Prop := (c → r = cnan) ∧ (¬c → isNaN r = false)

theorem NaNExactlyIf.eq_cnan {r : Word} {c : Prop} (h : NaNExactlyIf r c) (hr : isNaN r = true) : r = cnan := by
  obtain ⟨hyes, hno⟩ := h
  by_cases hc : c
  · exact hyes hc
  · simp [hno hc] at hr

theorem NaNExactlyIf.isNaN_iff {r : Word} {c : Prop} (h : NaNExactlyIf r c) : isNaN r = true ↔ c := by
  obtain ⟨hyes, hno⟩ := h
  by_cases hc : c
  · simp [hyes hc, hc, show isNaN cnan = true by decide]
  · simp [hno hc, hc]

theorem nanExactlyIf_ite {r : Word} (h : isNaN r = false) (c : Prop) [Decidable c] :
    NaNExactlyIf (if c then cnan else r) c :=
  ⟨fun hc => if_pos hc, fun hc => by rw [if_neg hc, h]⟩

theorem nanExactlyIf_of_not {r : Word} {c : Prop} (h : isNaN r = false) (hc : ¬c) : NaNExactlyIf r c :=
  ⟨fun hyes => absurd hyes hc, fun _ => h⟩

/-- The operands that are NaNs apart. -/
theorem nanExactlyIf_of_operands {r a b : Word} {c : Prop} (hnan : isNaN a = true ∨ isNaN b = true → r = cnan)
    (hrest : isNaN a = false → isNaN b = false → NaNExactlyIf r c) :
    NaNExactlyIf r (isNaN a = true ∨ isNaN b = true ∨ c) := by
  cases ha : isNaN a
  · cases hb : isNaN b
    · simpa using hrest ha hb
    · exact ⟨fun _ => hnan (.inr hb), fun h => by simp at h⟩
  · exact ⟨fun _ => hnan (.inl ha), fun h => by simp at h⟩

theorem fadd_of_isNaN {a b : Word} (h : isNaN a = true ∨ isNaN b = true) : fadd a b = cnan := by
  rcases h with h | h <;> simp [fadd, h]

theorem fsub_of_isNaN {a b : Word} (h : isNaN a = true ∨ isNaN b = true) : fsub a b = cnan :=
  fadd_of_isNaN (isNaN_fneg b ▸ h)

theorem fmul_of_isNaN {a b : Word} (h : isNaN a = true ∨ isNaN b = true) : fmul a b = cnan := by
  rcases h with h | h <;> simp [fmul, h]

theorem flt_eq_true_iff (a b : Word) :
    flt a b = true ↔ isNaN a = false ∧ isNaN b = false ∧ fval a < fval b := by
  simp [flt, and_assoc]

theorem flt_of_isNaN {a b : Word} (h : isNaN a = true ∨ isNaN b = true) : flt a b = false := by
  rcases h with h | h <;> simp [flt, h]

theorem isInf_or_isFinite {a : Word} (h : isNaN a = false) : isInf a = true ∨ isFinite a = true := by
  rcases nan_or_inf_or_finite a with ⟨hn, _⟩ | ⟨_, hi, _⟩ | ⟨_, _, hf⟩
  · simp [hn] at h
  · exact .inl hi
  · exact .inr hf

theorem isNaN_of_isInf {a : Word} (h : isInf a = true) : isNaN a = false := by
  rcases nan_or_inf_or_finite a with ⟨_, hi, _⟩ | ⟨hn, _, _⟩ | ⟨hn, _, _⟩
  · simp [hi] at h
  · exact hn
  · exact hn

theorem isInf_of_isFinite {a : Word} (h : isFinite a = true) : isInf a = false := (isNaN_isInf_of_finite a h).2

theorem isNaN_of_isFinite {a : Word} (h : isFinite a = true) : isNaN a = false := (isNaN_isInf_of_finite a h).1

theorem fadd_of_isInf_left {a b : Word} (ha : isInf a = true) (hb : isNaN b = false) :
    fadd a b = if isInf b = true ∧ fsign a ≠ fsign b then cnan else a := by
  simp [fadd, isNaN_of_isInf ha, ha, hb]

theorem fadd_of_isInf_right {a b : Word} (ha : isFinite a = true) (hb : isInf b = true) : fadd a b = b := by
  simp [fadd, isNaN_of_isFinite ha, isInf_of_isFinite ha, isNaN_of_isInf hb, hb]

theorem isNaN_fadd_of_finite {a b : Word} (ha : isFinite a = true) (hb : isFinite b = true) :
    isNaN (fadd a b) = false := by
  by_cases h : fval a + fval b = 0
  · rw [fadd_of_sum_eq_zero ha hb h]
    exact isNaN_of_isFinite (zeroOf_exact _).2
  · rw [fadd_of_sum_ne_zero ha hb h]
    exact isNaN_roundVal _

/-- A sum is a NaN for a NaN operand and for infinities of opposite signs (R151). -/
theorem fadd_nanExactlyIf (a b : Word) :
    NaNExactlyIf (fadd a b)
      (isNaN a = true ∨ isNaN b = true ∨ (isInf a = true ∧ isInf b = true ∧ fsign a ≠ fsign b)) := by
  refine nanExactlyIf_of_operands fadd_of_isNaN fun hna hnb => ?_
  rcases isInf_or_isFinite hna with ha | ha
  · rw [fadd_of_isInf_left ha hnb, ha, eq_self, true_and]
    exact nanExactlyIf_ite hna _
  · have hno : ¬(isInf a = true ∧ isInf b = true ∧ fsign a ≠ fsign b) := by simp [isInf_of_isFinite ha]
    rcases isInf_or_isFinite hnb with hb | hb
    · exact nanExactlyIf_of_not (by rw [fadd_of_isInf_right ha hb, hnb]) hno
    · exact nanExactlyIf_of_not (isNaN_fadd_of_finite ha hb) hno

/-- A difference is a NaN for a NaN operand and for infinities of the same sign (R151). -/
theorem fsub_nanExactlyIf (a b : Word) :
    NaNExactlyIf (fsub a b)
      (isNaN a = true ∨ isNaN b = true ∨ (isInf a = true ∧ isInf b = true ∧ fsign a = fsign b)) := by
  have h : NaNExactlyIf (fsub a b) _ := fadd_nanExactlyIf a (fneg b)
  simpa only [isNaN_fneg, isInf_fneg, fsign_fneg, ne_eq, Bool.eq_not, not_not] using h

theorem isZero_eq_false_of_isInf {a : Word} (h : isInf a = true) : isZero a = false := by
  rw [isZero_eq, fmag_of_isInf h]
  decide +kernel

/-- A product with an infinity: invalid with a zero, and an infinity otherwise (R151). -/
theorem fmul_of_isInf {a b : Word} (hna : isNaN a = false) (hnb : isNaN b = false)
    (h : isInf a = true ∨ isInf b = true) :
    fmul a b = if isZero a = true ∨ isZero b = true then cnan else infinityOf (fsign a ^^ fsign b) := by
  rcases h with h | h <;> simp [fmul, hna, hnb, h, isZero_eq, packF_infMag]

theorem isNaN_infinityOf (n : Bool) : isNaN (infinityOf n) = false := by cases n <;> decide

/-- A product is a NaN for a NaN operand and for an infinity times a zero (R151). -/
theorem fmul_nanExactlyIf (a b : Word) :
    NaNExactlyIf (fmul a b)
      (isNaN a = true ∨ isNaN b = true ∨ (isInf a = true ∧ isZero b = true) ∨ (isZero a = true ∧ isInf b = true)) := by
  refine nanExactlyIf_of_operands fmul_of_isNaN fun hna hnb => ?_
  by_cases hi : isInf a = true ∨ isInf b = true
  · have hcond : (isInf a = true ∧ isZero b = true) ∨ (isZero a = true ∧ isInf b = true) ↔
        isZero a = true ∨ isZero b = true := by
      rcases hi with h | h <;> simp [h, isZero_eq_false_of_isInf h]
    rw [hcond, fmul_of_isInf hna hnb hi]
    exact nanExactlyIf_ite (isNaN_infinityOf _) _
  · obtain ⟨ha, hb⟩ := not_or.1 hi
    have hfa := (isInf_or_isFinite hna).resolve_left ha
    have hfb := (isInf_or_isFinite hnb).resolve_left hb
    refine nanExactlyIf_of_not ?_ (by simp [ha, hb])
    rw [fmul_of_finite hfa hfb]
    exact isNaN_packF _ (roundMag_le _)

/-- Settles O33: each operation is a NaN under its own condition and then the canonical one. -/
theorem nanResultsAreCanonical : Obligations.NanResultsAreCanonical := by
  intro a b
  have hadd := fadd_nanExactlyIf a b
  have hsub := fsub_nanExactlyIf a b
  have hmul := fmul_nanExactlyIf a b
  exact ⟨fun h => ⟨fadd_of_isNaN h, fsub_of_isNaN h, fmul_of_isNaN h, flt_of_isNaN h⟩, hadd.eq_cnan, hsub.eq_cnan,
    hmul.eq_cnan, hadd.isNaN_iff, hsub.isNaN_iff, hmul.isNaN_iff⟩

/-! ### Infinities and signed zeros -/

theorem roundVal_overflow {v : Int} (h : (2 ^ 25 - 1) * 2 ^ 252 ≤ v.natAbs) :
    roundVal v = infinityOf (decide (v < 0)) := by
  have hround : roundMag (v.natAbs * 2 ^ 149) = infMag := by
    rw [roundMag_eq_infMag_iff, show 401 = 252 + 149 from rfl, pow_add, ← mul_assoc]
    exact Nat.mul_le_mul_right _ h
  rw [roundVal, hround, packF_infMag]

theorem fneg_eq_infinityOf {b : Word} (h : isInf b = true) : fneg b = infinityOf (!fsign b) := by
  rw [← fsign_fneg]
  exact eq_infinityOf _ (isInf_fneg b ▸ h)

theorem fsub_of_isInf_left {a b : Word} (ha : isInf a = true) (hb : isNaN b = false) :
    fsub a b = if isInf b = true ∧ fsign a = fsign b then cnan else a := by
  rw [fsub, fadd_of_isInf_left ha (isNaN_fneg b ▸ hb)]
  simp only [isInf_fneg, fsign_fneg, ne_eq, Bool.eq_not, not_not]

theorem fmul_comm (a b : Word) : fmul a b = fmul b a := by
  simp only [fmul, Bool.or_comm, Bool.xor_comm, Nat.mul_comm]

/-- A product is the one NaN or carries the exclusive-or of the signs (R151). -/
theorem fmul_eq_cnan_or_packF (a b : Word) :
    fmul a b = cnan ∨ ∃ p < 2 ^ 31, fmul a b = packF (fsign a ^^ fsign b) p := by
  unfold fmul
  split_ifs
  · exact .inl rfl
  · exact .inl rfl
  · exact .inr ⟨_, by decide, rfl⟩
  · exact .inr ⟨_, roundMag_lt _, rfl⟩

theorem fsign_fmul {a b : Word} (h : isNaN (fmul a b) = false) : fsign (fmul a b) = (fsign a ^^ fsign b) := by
  rcases fmul_eq_cnan_or_packF a b with hnan | ⟨p, hp, hpack⟩
  · rw [hnan] at h
    exact absurd h (by decide)
  · rw [hpack, fsign_packF _ hp]

theorem fmul_overflow {a b : Word} (ha : isFinite a = true) (hb : isFinite b = true)
    (h : (2 ^ 25 - 1) * 2 ^ 401 ≤ (fval a * fval b).natAbs) : fmul a b = infinityOf (fsign a ^^ fsign b) := by
  rw [natAbs_fval_mul, ← roundMag_eq_infMag_iff] at h
  rw [fmul_of_finite ha hb, h, packF_infMag]

/-- Settles O58: the clauses in their order, by the kinds of the operands; overflow is `roundMag_eq_infMag_iff`. -/
theorem infinitiesAndSignedZeros : Obligations.InfinitiesAndSignedZeros := by
  intro a b
  refine ⟨fun ha hb => ?_, fun ha hb => ?_, fun ha hb => ?_, fun ha hnb hz => ?_, fun ha hb => ?_, fsign_fmul⟩
  · rw [fadd_of_isInf_left ha (isNaN_of_isFinite hb), fsub_of_isInf_left ha (isNaN_of_isFinite hb)]
    simp [isInf_of_isFinite hb]
  · rw [fsub, fadd_of_isInf_right ha hb, fadd_of_isInf_right ha (isInf_fneg b ▸ hb), fneg_eq_infinityOf hb]
    exact ⟨rfl, rfl⟩
  · rw [fadd_of_isInf_left ha (isNaN_of_isInf hb), fsub_of_isInf_left ha (isNaN_of_isInf hb)]
    exact ⟨fun h => if_neg (by simp [h]), fun h => if_neg (by simp [h])⟩
  · rw [fmul_comm b, fmul_of_isInf (isNaN_of_isInf ha) hnb (.inl ha), isZero_eq_false_of_isInf ha, hz]
    simp
  · refine ⟨fun h => ?_, fun h => ?_, fmul_overflow ha hb, fadd_of_sum_eq_zero ha hb,
      fsub_of_difference_eq_zero ha hb, ?_⟩
    · rw [fadd_of_sum_ne_zero ha hb (by rintro h0; simp [h0] at h), roundVal_overflow h]
    · rw [fsub_of_difference_ne_zero ha hb (by rintro h0; simp [h0] at h), roundVal_overflow h]
    · rw [fsub_of_difference_eq_zero ha ha (sub_self _), Bool.and_not_self]
      rfl

/-! ### Comparison and absolute value -/

theorem flt_eq_decide {a b : Word} (ha : isNaN a = false) (hb : isNaN b = false) :
    flt a b = decide (fval a < fval b) := by
  simp [flt, ha, hb]

theorem fval_of_isInf {a : Word} (h : isInf a = true) :
    fval a = if fsign a = true then -(patternMag infMag : Int) else patternMag infMag := by
  rw [fval, fmag_of_isInf h]

theorem natAbs_fval_lt_of_isFinite {a : Word} (h : isFinite a = true) : (fval a).natAbs < patternMag infMag := by
  rw [fval_natAbs]
  exact fmag_lt_of_isFinite h

theorem toNat_fabs (a : Word) : (fabs a).toNat = a.toNat % 2 ^ 31 := by
  rw [fabs, BitVec.toNat_and]
  exact Nat.and_two_pow_sub_one_eq_mod a.toNat 31

theorem fabs_eq (a : Word) : fabs a = packF false (a.toNat % 2 ^ 31) := by
  apply BitVec.eq_of_toNat_eq
  rw [toNat_fabs, packF_toNat _ (Nat.mod_lt _ (by decide))]
  simp

theorem getLsbD_fabs (a : Word) {k : Nat} (hk : k < 31) : (fabs a).getLsbD k = a.getLsbD k := by
  have hmask : ∀ k < 31, (0x7FFFFFFF : Word).getLsbD k = true := by decide
  rw [fabs, BitVec.getLsbD_and, hmask k hk, Bool.and_true]

theorem fsign_fabs (a : Word) : fsign (fabs a) = false := by
  rw [fabs_eq, fsign_packF _ (Nat.mod_lt _ (by decide))]

theorem fval_fabs (a : Word) : fval (fabs a) = fmag a := by
  rw [fval, fsign_fabs, fabs_eq, fmag_packF _ (Nat.mod_lt _ (by decide)), ← fmag_eq_patternMag]
  simp

/-- Settles O59: an infinity's magnitude is above every finite one; `fabs` takes the low 31 bits. -/
theorem comparisonAndAbsoluteValue : Obligations.ComparisonAndAbsoluteValue := by
  intro a b
  have hpos : 0 < patternMag infMag := by decide +kernel
  refine ⟨fun ha hb => ?_, fun ha hb => ?_, fun ha hb => ?_, fun ha hb => ?_, fsign_fabs a,
    fun _ => getLsbD_fabs a, fun ha => ?_⟩
  · exact flt_eq_decide (isNaN_of_isFinite ha) (isNaN_of_isFinite hb)
  · have hlt := natAbs_fval_lt_of_isFinite hb
    rw [flt_eq_decide (isNaN_of_isInf ha) (isNaN_of_isFinite hb), fval_of_isInf ha]
    cases fsign a <;> simp <;> omega
  · have hlt := natAbs_fval_lt_of_isFinite ha
    rw [flt_eq_decide (isNaN_of_isFinite ha) (isNaN_of_isInf hb), fval_of_isInf hb]
    cases fsign b <;> simp <;> omega
  · rw [flt_eq_decide (isNaN_of_isInf ha) (isNaN_of_isInf hb), fval_of_isInf ha, fval_of_isInf hb]
    cases fsign a <;> cases fsign b <;> simp; omega
  · rw [fval_fabs, ← fval_natAbs, Int.natCast_natAbs]

/-! ### The correction -/

theorem isNaN_fabs (a : Word) : isNaN (fabs a) = isNaN a := by
  rw [isNaN, isNaN, fexp_eq, fexp_eq, ffrac_eq, ffrac_eq, toNat_fabs,
    show a.toNat % 2 ^ 31 / 2 ^ 23 % 2 ^ 8 = a.toNat / 2 ^ 23 % 2 ^ 8 by omega,
    show a.toNat % 2 ^ 31 % 2 ^ 23 = a.toNat % 2 ^ 23 by omega]

theorem isFinite_of_fmag_lt {a : Word} (h : fmag a < patternMag infMag) : isFinite a = true := by
  rw [fmag_eq_patternMag, patternMag_strictMono.lt_iff_lt] at h
  rw [isFinite_eq, decide_eq_true h]

/-- The open interval in which the area is corrected, by its magnitude (R157, R159). -/
def InClipInterval (a : Word) : Prop := isNaN a = false ∧ fmag nclipLo < fmag a ∧ fmag a < fmag nclipHi

theorem inClipInterval_iff (a : Word) :
    InClipInterval a ↔ flt nclipLo (fabs a) = true ∧ flt (fabs a) nclipHi = true := by
  have hlo : isNaN nclipLo = false ∧ fval nclipLo = fmag nclipLo := by decide
  have hhi : isNaN nclipHi = false ∧ fval nclipHi = fmag nclipHi := by decide
  simp only [flt_eq_true_iff, fval_fabs, isNaN_fabs, hlo, hhi, InClipInterval, true_and, Nat.cast_lt]
  exact ⟨fun ⟨hn, h1, h2⟩ => ⟨⟨hn, h1⟩, hn, h2⟩, fun ⟨⟨hn, h1⟩, _, h2⟩ => ⟨hn, h1, h2⟩⟩

theorem nclipCorrect_of_not_inClipInterval {a : Word} (h : ¬InClipInterval a) : nclipCorrect a = a := by
  rw [inClipInterval_iff, ← Bool.and_eq_true] at h
  rw [nclipCorrect, if_neg h]

/-- In the interval the area moves away from zero by 1.0, in one rounded addition (R158, R159). -/
theorem nclipCorrect_of_inClipInterval {a : Word} (h : InClipInterval a) :
    ∃ v : Int, nclipCorrect a = roundVal v ∧ v.natAbs = fmag a + fmag nclipHi ∧ decide (v < 0) = fsign a := by
  have hcond := (inClipInterval_iff a).1 h
  obtain ⟨hnan, hlo, hhi⟩ := h
  have hplus : fval fOne = fmag nclipHi := by decide
  have hminus : fval fMinusOne = -(fmag nclipHi : Int) := by decide
  have hfin : isFinite a = true := isFinite_of_fmag_lt (hhi.trans (by decide +kernel))
  rw [nclipCorrect, if_pos (by rwa [Bool.and_eq_true]), flt_eq_decide hnan (by decide), show fval 0 = 0 by decide]
  simp only [decide_eq_true_eq]
  cases hs : fsign a
  · have hval : fval a = fmag a := by simp [fval, hs]
    refine ⟨fval a + fval fOne, ?_, by omega, decide_eq_false (by omega)⟩
    rw [if_neg (by omega), fadd_of_sum_ne_zero hfin (by decide) (by omega)]
  · have hval : fval a = -(fmag a : Int) := by simp [fval, hs]
    refine ⟨fval a + fval fMinusOne, ?_, by omega, decide_eq_true (by omega)⟩
    rw [if_pos (by omega), fadd_of_sum_ne_zero hfin (by decide) (by omega)]

theorem not_inClipInterval_nclipCorrect (a : Word) : ¬InClipInterval (nclipCorrect a) := by
  by_cases h : InClipInterval a
  · obtain ⟨v, hround, hmag, _⟩ := nclipCorrect_of_inClipInterval h
    have hge : fmag nclipHi ≤ fmag (roundVal v) := by
      rw [fmag_eq_patternMag nclipHi] at hmag ⊢
      exact patternMag_le_fmag_roundVal (by decide) (by omega)
    rw [hround]
    exact fun ⟨_, _, hlt⟩ => hge.not_gt hlt
  · rwa [nclipCorrect_of_not_inClipInterval h]

theorem fsign_nclipCorrect (a : Word) : fsign (nclipCorrect a) = fsign a := by
  by_cases h : InClipInterval a
  · obtain ⟨v, hround, _, hneg⟩ := nclipCorrect_of_inClipInterval h
    rw [hround, fsign_roundVal, hneg]
  · rw [nclipCorrect_of_not_inClipInterval h]

/-- Settles O37: rounding is monotone, so that a magnitude moved past 1.0 is not rounded below it. -/
theorem nclipNeverInsideOpenInterval : Obligations.NclipNeverInsideOpenInterval := fun a =>
  ⟨(inClipInterval_iff _).not.1 (not_inClipInterval_nclipCorrect a), fun _ => fsign_nclipCorrect a⟩

/-! ### Integer areas -/

/-- The pattern `a` is finite and its value is the integer `n`. -/
structure HoldsInt (a : Word) (n : Int) : Prop where
  finite : isFinite a = true
  val : fval a = n * 2 ^ 149

theorem holdsInt_i2f {n : Int} (hn : n.natAbs ≤ 2 ^ 24) : HoldsInt (i2f n) n := by
  obtain ⟨hval, hfin⟩ := i2f_exact hn
  exact ⟨hfin, hval⟩

section
variable {a b : Word} {m n : Int} (ha : HoldsInt a m) (hb : HoldsInt b n)
include ha hb

theorem HoldsInt.fadd (h : (m + n).natAbs ≤ 2 ^ 24) : HoldsInt (fadd a b) (m + n) := by
  have hc := holdsInt_i2f h
  obtain ⟨hval, hfin⟩ := fadd_exact ha.finite hb.finite hc.finite (by rw [ha.val, hb.val, hc.val]; ring)
  exact ⟨hfin, hval.trans hc.val⟩

theorem HoldsInt.fsub (h : (m - n).natAbs ≤ 2 ^ 24) : HoldsInt (fsub a b) (m - n) := by
  have hc := holdsInt_i2f h
  obtain ⟨hval, hfin⟩ := fsub_exact ha.finite hb.finite hc.finite (by rw [ha.val, hb.val, hc.val]; ring)
  exact ⟨hfin, hval.trans hc.val⟩

theorem HoldsInt.fmul (h : (m * n).natAbs ≤ 2 ^ 24) : HoldsInt (fmul a b) (m * n) := by
  have hc := holdsInt_i2f h
  obtain ⟨hval, hfin⟩ := fmul_exact ha.finite hb.finite hc.finite (by rw [ha.val, hb.val, hc.val]; ring)
  exact ⟨hfin, hval.trans hc.val⟩

end

/-- An integer is never corrected: it is 0 or its magnitude is at least 1.0 (R159). -/
theorem nclipCorrect_of_holdsInt {a : Word} {n : Int} (h : HoldsInt a n) : nclipCorrect a = a := by
  refine nclipCorrect_of_not_inClipInterval fun ⟨_, hlo, hhi⟩ => ?_
  have hmag : fmag a = n.natAbs * 2 ^ 149 := by rw [← fval_natAbs, h.val, Int.natAbs_mul]; rfl
  have hone : fmag nclipHi = 2 ^ 149 := by decide +kernel
  omega

/-- A slot holds the integer point (x, y) of the screen's range. -/
structure HoldsPoint (v : ShadowValue) (x y : Int) : Prop where
  holds_x : HoldsInt v.x x
  holds_y : HoldsInt v.y y
  x_le : x.natAbs ≤ 2 ^ 10
  y_le : y.natAbs ≤ 2 ^ 10

theorem holdsPoint_degrade {w : Word} (hx : -1024 ≤ (xHalf w).toInt ∧ (xHalf w).toInt ≤ 1023)
    (hy : -1024 ≤ (yHalf w).toInt ∧ (yHalf w).toInt ≤ 1023) :
    HoldsPoint (degrade w) (xHalf w).toInt (yHalf w).toInt :=
  ⟨holdsInt_i2f (by omega), holdsInt_i2f (by omega), by omega, by omega⟩

/-- A product of the area's formula is exact. -/
theorem HoldsPoint.product {v v' : ShadowValue} {x y x' y' : Int} (h : HoldsPoint v x y) (h' : HoldsPoint v' x' y') :
    HoldsInt (fmul v.x v'.y) (x * y') ∧ (x * y').natAbs ≤ 2 ^ 20 := by
  have hle : (x * y').natAbs ≤ 2 ^ 20 := by
    rw [Int.natAbs_mul]
    exact (Nat.mul_le_mul h.x_le h'.y_le).trans (by decide)
  exact ⟨h.holds_x.fmul h'.holds_y (by omega), hle⟩

/-- The area of three integer points is exact, in every product and sum (R158, R160). -/
theorem holdsInt_signedArea {v0 v1 v2 : ShadowValue} {x0 y0 x1 y1 x2 y2 : Int} (h0 : HoldsPoint v0 x0 y0)
    (h1 : HoldsPoint v1 x1 y1) (h2 : HoldsPoint v2 x2 y2) :
    HoldsInt (signedArea v0 v1 v2) ((x0 * y1 + x1 * y2 + x2 * y0) - (x0 * y2 + x1 * y0 + x2 * y1)) := by
  obtain ⟨p01, b01⟩ := h0.product h1
  obtain ⟨p12, b12⟩ := h1.product h2
  obtain ⟨p20, b20⟩ := h2.product h0
  obtain ⟨p02, b02⟩ := h0.product h2
  obtain ⟨p10, b10⟩ := h1.product h0
  obtain ⟨p21, b21⟩ := h2.product h1
  have hplus := (p01.fadd p12 (by omega)).fadd p20 (by omega)
  have hminus := (p02.fadd p10 (by omega)).fadd p21 (by omega)
  exact hplus.fsub hminus (by omega)

/-- Settles O38: the degraded slots hold integer points, whose area is exact and not corrected. -/
theorem nclipOnDegradedIsIntegerArea : Obligations.NclipOnDegradedIsIntegerArea := by
  intro w0 w1 w2 s h0 h1 h2 hrange
  have hpoint : ∀ w ∈ [w0, w1, w2], HoldsPoint (degrade w) (xHalf w).toInt (yHalf w).toInt := by
    intro w hw
    obtain ⟨hx, hy⟩ := hrange w hw
    exact holdsPoint_degrade hx hy
  have harea := holdsInt_signedArea (hpoint w0 (by simp)) (hpoint w1 (by simp)) (hpoint w2 (by simp))
  have hresult : s.nclipResult = signedArea (degrade w0) (degrade w1) (degrade w2) := by
    rw [State.nclipResult, sxy0, sxy1, sxy2, h0, h1, h2, nclipCorrect_of_holdsInt harea]
  exact ⟨_, _, exec_nclip s, emit_out .., hresult ▸ harea.finite, hresult ▸ harea.val⟩

/-! ### NCLIPV and NCLIP -/

/-- Settles O36: NCLIP is one `emit`, which touches the events alone. -/
theorem nclipEvaluatesSignedArea : Obligations.NclipEvaluatesSignedArea := by
  refine ⟨encodedAs_of_header .nclip (by decide) rfl, fun s => ⟨_, exec_nclip s, ?_, fun _ => slot_emit ..,
    fun _ => slot_emit .., emit_seq .., sameInputs_emit ..⟩⟩
  rw [emit_out, State.nclipResult, nclipCorrect]
  simp only [Bool.and_eq_true]
  rfl

/-- The three Validates of NCLIPV do not meet: each slot is validated against its own operand (R156). -/
theorem slot_validateFifo (s : State) (r0 r1 r2 : Word) :
    (s.validateFifo r0 r1 r2).slot .data 12 = validate (s.slot .data 12) r0 ∧
      (s.validateFifo r0 r1 r2).slot .data 13 = validate (s.slot .data 13) r1 ∧
      (s.validateFifo r0 r1 r2).slot .data 14 = validate (s.slot .data 14) r2 := by
  simp [State.validateFifo, slot_validateSlot, sxy0, sxy1, sxy2]

theorem boolWord_fifoXyv (s : State) :
    boolWord s.fifoXyv = if xyv (s.slot .data 12).flags = true ∧ xyv (s.slot .data 13).flags = true ∧
      xyv (s.slot .data 14).flags = true then 0x00000001 else 0x00000000 := by
  simp only [boolWord, State.fifoXyv, Bool.and_eq_true, and_assoc]
  rfl

theorem sameInputs_validateFifo (s : State) (r0 r1 r2 : Word) : SameInputs s (s.validateFifo r0 r1 r2) :=
  ⟨rfl, rfl, rfl, rfl, rfl, rfl⟩

/-- Settles O35: NCLIPV is `validateFifo` and one `emit` of the answer read afterwards. -/
theorem nclipvValidatesAllThree : Obligations.NclipvValidatesAllThree := by
  intro r0 r1 r2 s
  have hpacket : EncodedAs (.nclipv r0 r1 r2) 0x0D000000 4 :=
    encodedAs_of_header _ (show (⟨0x0D, 0, 0, 0, 0, 0, 0⟩ : Header).word = _ by decide) rfl
  obtain ⟨h12, h13, h14⟩ := slot_validateFifo s r0 r1 r2
  refine ⟨hpacket, _, exec_nclipv r0 r1 r2 s, ?_⟩
  simp only [slot_emit, SameFile]
  refine ⟨h12, h13, h14, fun j hj => slot_validateFifo_of_not_fifo _ _ _ _ (by omega),
    fun j => slot_validateFifo_of_not_fifo _ _ _ _ (by simp), emit_seq .., ?_,
    sameInputs_trans (sameInputs_validateFifo s r0 r1 r2) (sameInputs_emit ..)⟩
  rw [emit_out, validateFifo_out, boolWord_fifoXyv]

end Sys2Proof.Machine
end

section
/-! PROOFS. RDATA, WDATA, RCTRL, WCTRL, LDMEM and STMEM (spec/44_transfer.md): one slot's change followed through
Validate, the head re-derive and the events, the inputs under the shared operations; then the statements. -/

namespace Sys2Proof.Machine

/-! ### One slot's change, followed through an operation -/

theorem onlySlot_refl (f : FileSel) (i : RegIdx) (s : State) : OnlySlot f i (s.slot f i) s s :=
  ⟨rfl, fun _ _ _ => rfl⟩

theorem OnlySlot.emit {f : FileSel} {i : RegIdx} {v : ShadowValue} {s u : State} (h : OnlySlot f i v s u)
    (e : Event) : OnlySlot f i v s (u.emit e) := by
  simpa [OnlySlot] using h

/-- A second write to the slot leaves it the only one changed. -/
theorem OnlySlot.writeSlot {f : FileSel} {i : RegIdx} {v : ShadowValue} {s u : State} (h : OnlySlot f i v s u)
    (v' : ShadowValue) : OnlySlot f i v' s (u.writeSlot f i v') :=
  ⟨slot_writeSlot_same .., fun g j hne => (slot_writeSlot_of_ne _ _ _ _ hne).trans (h.2 g j hne)⟩

theorem OnlySlot.validateSlot {f : FileSel} {i : RegIdx} {v : ShadowValue} {s u : State} (h : OnlySlot f i v s u)
    (w : Word) : OnlySlot f i (validate v w) s (u.validateSlot f i w) := by
  rw [State.validateSlot, h.1]
  exact h.writeSlot _

/-- A read transfer changes its source slot, to the validated value, and no other (R172, R174). -/
theorem OnlySlot.readTransfer {f : FileSel} {i : RegIdx} {v : ShadowValue} {s u : State} (h : OnlySlot f i v s u)
    (hd : RegIdx) (rt rd : Word) : OnlySlot f i (validate v rd) s (u.readTransfer f i hd rt rd) := by
  rw [readTransfer_eq]
  exact (h.validateSlot rd).emit _

/-- The head re-derive replaces the slot about to be read, at index 15 under the parameter only (R171). -/
theorem onlySlot_rederiveHead (s : State) (b : Bool) (i : RegIdx) :
    OnlySlot .data i (if i = 15 ∧ b = true then s.slot .data 14 else s.slot .data i) s (s.rederiveHead b i) := by
  refine ⟨?_, fun g j hne => slot_rederiveHead_of_ne s b (by simpa using hne)⟩
  by_cases h15 : i = 15 <;> simp [slot_rederiveHead, sxyp, sxy2, h15]

/-! ### The inputs -/

theorem sameInputs_rederiveHead (s : State) (b : Bool) (i : RegIdx) : SameInputs s (s.rederiveHead b i) := by
  obtain ⟨_, _, hcmd, hpending, _, hinputs⟩ := rederiveHead_frame s b i
  exact ⟨hcmd, hpending, hinputs⟩

theorem sameInputs_readTransfer (s : State) (f : FileSel) (i h : RegIdx) (rt rd : Word) :
    SameInputs s (s.readTransfer f i h rt rd) := ⟨rfl, rfl, rfl, rfl, rfl, rfl⟩

theorem sameInputs_regWrite (s : State) (i : RegIdx) (v : ShadowValue) (w : Word) :
    SameInputs s (s.regWrite i v w) := by
  obtain ⟨_, _, hcmd, hpending, _, hinputs⟩ := regWrite_frame s i v w
  exact ⟨hcmd, hpending, hinputs⟩

/-! ### The statements -/

/-- Settles O39: the re-derive and the read transfer change the source slot alone, for either value of the
parameter. -/
theorem rdataValidatesAndCopiesOut : Obligations.RdataValidatesAndCopiesOut := by
  intro dsrc hdst rt rd s
  have hpacket : EncodedAs (.rdata dsrc hdst rt rd) (headerNumber 0x05 dsrc.val hdst.val 0) 3 :=
    encodedAs_of_header _ (word_eq_headerNumber 0x05 (by decide) dsrc hdst 0 (by decide)) rfl
  have hread := onlySlot_rederiveHead s Config.headRederiveOnRead dsrc
  refine ⟨hpacket, _, exec_rdata .., hread.readTransfer hdst rt rd, rederiveHead_seq .., ?_,
    sameInputs_trans (sameInputs_rederiveHead ..) (sameInputs_readTransfer ..)⟩
  rw [readTransfer_out, rederiveHead_out, hread.1]
  rfl

/-- Settles O40: WDATA is one `emit` of the validated payload and one `regWrite` of it. -/
theorem wdataValidatesAndWrites : Obligations.WdataValidatesAndWrites := by
  intro hsrc ddst rd rt src s
  have hpacket : EncodedAs (.wdata hsrc ddst rd rt src) (headerNumber 0x06 hsrc.val ddst.val 0) 9 :=
    encodedAs_of_header _ (word_eq_headerNumber 0x06 (by decide) hsrc ddst 0 (by decide)) rfl
  exact ⟨hpacket, _, exec_wdata .., (sameSlots_of_files rfl rfl).regWritten ddst (validate src rt) rd,
    regWrite_seq .., regWrite_out .., sameInputs_trans (sameInputs_emit ..) (sameInputs_regWrite ..)⟩

/-- Settles O41: RCTRL is the read transfer on the control file. -/
theorem rctrlValidatesAndCopiesOut : Obligations.RctrlValidatesAndCopiesOut := by
  intro csrc hdst rt rd s
  have hpacket : EncodedAs (.rctrl csrc hdst rt rd) (headerNumber 0x07 csrc.val hdst.val 0) 3 :=
    encodedAs_of_header _ (word_eq_headerNumber 0x07 (by decide) csrc hdst 0 (by decide)) rfl
  exact ⟨hpacket, _, exec_rctrl .., (onlySlot_refl .ctrl csrc s).readTransfer hdst rt rd, readTransfer_seq ..,
    readTransfer_out .., sameInputs_readTransfer ..⟩

/-- Settles O42: WCTRL is one `emit` of the validated payload and one `writeSlot`, whatever the index. -/
theorem wctrlValidatesAndStores : Obligations.WctrlValidatesAndStores := by
  intro hsrc cdst rd rt src s
  have hpacket : EncodedAs (.wctrl hsrc cdst rd rt src) (headerNumber 0x08 hsrc.val cdst.val 0) 9 :=
    encodedAs_of_header _ (word_eq_headerNumber 0x08 (by decide) hsrc cdst 0 (by decide)) rfl
  exact ⟨hpacket, _, exec_wctrl .., ((onlySlot_refl .ctrl cdst s).emit _).writeSlot (withRaw (validate src rt) rd),
    writeSlot_seq .., writeSlot_out .., sameInputs_trans (sameInputs_emit ..) (sameInputs_writeSlot ..)⟩

/-- Settles O43: the request takes the answer at hand, and the register write of that answer follows. -/
theorem ldmemAnsweredWritesResponse : Obligations.LdmemAnsweredWritesResponse := by
  intro ddst address w a rest s hv
  have hpacket : EncodedAs (.ldmem ddst address w) (headerNumber 0x09 0 ddst.val 0) 3 :=
    encodedAs_of_header _ (word_eq_headerNumber 0x09 (by decide) 0 ddst 0 (by decide)) rfl
  have hsame : SameSlots s s := fun _ _ => rfl
  obtain ⟨hcmd, hmode, hmodeIn, hin, hreset⟩ := requestVcm_frame s ⟨ddst, address, w⟩
  rw [hv] at hin
  exact ⟨hpacket, _, exec_ldmem .., hsame.regWritten_requestVcm hv ⟨ddst, address, w⟩, requestVcm_seq ..,
    requestVcm_out .., hin, hcmd, requestVcm_vcmPending_of_answered (by simp [hv]) _, hmode, hmodeIn, hreset⟩

/-- Settles O46: STMEM is one `validateSlot` and one `emit` of the slot it leaves. -/
theorem stmemValidatesAndPersists : Obligations.StmemValidatesAndPersists := by
  intro dsrc address w s
  have hpacket : EncodedAs (.stmem dsrc address w) (headerNumber 0x0A dsrc.val 0 0) 3 :=
    encodedAs_of_header _ (word_eq_headerNumber 0x0A (by decide) dsrc 0 0 (by decide)) rfl
  refine ⟨hpacket, _, exec_stmem .., ((onlySlot_refl .data dsrc s).validateSlot w).emit _, emit_seq .., ?_,
    sameInputs_trans (sameInputs_writeSlot ..) (sameInputs_emit ..)⟩
  rw [emit_out, slot_validateSlot_same, validateSlot_out]
  rfl

/-- Settles O47, from the effects of WDATA and RDATA: the push leaves src in D[14] and D[15], so RDATA reads src from
either of them, and a match keeps it. -/
theorem roundTripThroughRegister15 : Obligations.RoundTripThroughRegister15 := by
  intro h g rd rt rt2 src s hraw
  obtain ⟨_, u, hwdata, ⟨hpush, _⟩, _, hsent, _⟩ := wdataValidatesAndWrites h 15 rd rt src s
  obtain ⟨_, t, hrdata, ⟨h15, hother⟩, _, hcopied, _⟩ := rdataValidatesAndCopiesOut 15 g rt2 rt u
  obtain ⟨_, _, hu14, hu15, _⟩ := hpush rfl
  simp only [hu14, hu15, hraw, if_true, ite_self] at hsent h15 hcopied
  refine ⟨t, by simp only [execAll, hwdata, hrdata], h15, ?_, ?_⟩
  · rw [hother .data 14 (by decide), hu14, if_pos hraw]
  · rw [hcopied, hsent, List.append_assoc, List.singleton_append]

end Sys2Proof.Machine
end

section
/-! PROOFS. The absence of exceptions (spec/60_exceptions.md). -/

namespace Sys2Proof.Machine

/-- Settles O13, by the command split of `exec_answers_next`: every arm of exec ends in a next state (R190). -/
theorem everyCommandAnswersNext : Obligations.EveryCommandAnswersNext := exec_answers_next

end Sys2Proof.Machine
end

section
/-! PROOFS. The hardware reset as a step (spec/70_reset_and_hazards.md). -/

namespace Sys2Proof.Machine

/-- Settles O15: by `step_of_resetIn` the step is the hardware reset, whatever CMD and the request hold; its fields are
the laws of `hardwareReset`. -/
theorem hardwareResetStep : Obligations.HardwareResetStep := by
  intro s hr
  have hin : s.hardwareReset.resetIn = true := (hardwareReset_resetIn s).trans hr
  exact ⟨s.hardwareReset, step_of_resetIn hr, slot_hardwareReset s, hardwareReset_seq s, hardwareReset_cmd s,
    hardwareReset_vcmPending s, hardwareReset_out s, hardwareReset_mode s, hardwareReset_modeIn s,
    hardwareReset_vcmIn s, hin⟩

end Sys2Proof.Machine
end
